-- ==== Sys2Proof/Word.lean ====
section
/-! DEFINITION. The widths of the HTB (spec/00_scope.md R6, R7): register words, bytes, window offsets, and the
bit strings of R8. -/

namespace Sys2Proof

/-- A register value: an unsigned 32-bit word (R7, REG_W). -/
abbrev Word := BitVec 32

/-- A byte: a symbol of the alphabet (NSYM = 256) or a packed output byte. -/
abbrev Byte := BitVec 8

/-- A byte offset in the register window of 0x8000 bytes (R42: 15 bits wide). -/
abbrev Offset := BitVec 15

/-- A bit string (R8), first bit first. `true` is "1". -/
abbrev Bits := List Bool

end Sys2Proof
end

