-- ==== Sys2Proof/Config.lean ====
section
/-! DEFINITION. What the spec leaves open: the two OPEN parameters of spec/00_scope.md R6 and the draws of R10. Both
are constants with no body, so that whatever is proved holds for every value of them. -/

namespace Sys2Proof

/-- The OPEN parameters of R6. OUT_FIFO_DEPTH is held as its predecessor, so that exactly the integers 1..65535 can
be written down. -/
structure Params where
  fifoDepthPred : Fin 65535
  base : Nat
deriving DecidableEq, Repr, Inhabited

/-- OUT_FIFO_DEPTH, an integer from 1 to 65535 (R6, D12). -/
def Params.outFifoDepth (p : Params) : Nat := p.fifoDepthPred.val + 1

/-- FREE VALUE (DESIGN CHOICE, log 4): the platform's parameters. -/
opaque Config.params : Params

/-- FREE VALUE (log 3): the n-th draw of a run, some word the hardware does not fix (R10). -/
opaque Config.draw : Nat → Word

end Sys2Proof
end

