-- ==== Sys2Proof/Syntax.lean ====
section
/-! DEFINITION. The six commands of spec/30_encoding.md R62, one constructor per row of opcode_table.json. -/

namespace Sys2Proof

/-- A command. The one operand is ENC's symbol, ARG = word[7:0], unsigned 0..255 (R61). -/
inductive Instr where
  | nop
  | clear
  | build
  | gen
  | enc (s : Byte)
  | flush
deriving DecidableEq, Repr

end Sys2Proof
end

