-- ==== Sys2Proof/Decode.lean ====
section
/-! DEFINITION. The command format of spec/30_encoding.md R60 to R64: the decoder, total on every 32-bit word, then
the opcode map and the encoder. -/

namespace Sys2Proof

/-- The three cases in which a word is illegal (R63). The HTB itself reports only ILLEGAL_CMD; the case is named for
the reader. -/
inductive Illegal where
  | opcode  -- OPC in 0x06..0xFF
  | rsvd    -- RSVD ≠ 0
  | arg     -- ARG ≠ 0 with OPC ≠ 0x04
deriving DecidableEq, Repr

/-- OPC = word[31:24] (R60). -/
def opcField (w : Word) : BitVec 8 := w.extractLsb' 24 8

/-- RSVD = word[23:8] (R60). -/
def rsvdField (w : Word) : BitVec 16 := w.extractLsb' 8 16

/-- ARG = word[7:0] (R60). -/
def argField (w : Word) : Byte := w.extractLsb' 0 8

/-- A command without operand: RSVD and ARG must be 0 (R60, R63). -/
def decodePlain (i : Instr) (w : Word) : Except Illegal Instr :=
  if rsvdField w ≠ 0 then .error .rsvd
  else if argField w ≠ 0 then .error .arg
  else .ok i

/-- ENC: RSVD must be 0, ARG is the symbol (R60, R61, R63). -/
def decodeEnc (w : Word) : Except Illegal Instr :=
  if rsvdField w ≠ 0 then .error .rsvd
  else .ok (.enc (argField w))

/-- The decoder: the command from OPC alone, then the checks of RSVD and ARG (R60, R62, R63). No phase and no mode
changes how a word decodes (R60). -/
def decode (w : Word) : Except Illegal Instr :=
  match (opcField w).toNat with
  | 0 => decodePlain .nop w
  | 1 => decodePlain .clear w
  | 2 => decodePlain .build w
  | 3 => decodePlain .gen w
  | 4 => decodeEnc w
  | 5 => decodePlain .flush w
  | _ => .error .opcode

/-- `illegal(w)` of R63 and R69. -/
def isIllegal (w : Word) : Bool :=
  match decode w with
  | .ok _ => false
  | .error _ => true

/-- The word whose low `nbits` bits are those of `w` and whose other bits are 0. -/
def tableWord (nbits w : Nat) : Word := BitVec.ofNat 32 (w % 2 ^ nbits)

/-- The command read from a word given as opcode_table.json numbers its bits. A command is one 32-bit word handed
over whole, so there is no byte order to lay out (spec/20_memory.md R46). -/
def decodeTableWord (nbits w : Nat) : Option Instr :=
  match decode (tableWord nbits w) with
  | .ok i => some i
  | .error _ => none

/-- OPC of a command (R62). -/
def opcOf : Instr → BitVec 8
  | .nop => 0x00
  | .clear => 0x01
  | .build => 0x02
  | .gen => 0x03
  | .enc _ => 0x04
  | .flush => 0x05

/-- ARG of a command: the symbol of ENC, 0 for every other (R60, R61). -/
def argOf : Instr → Byte
  | .enc s => s
  | .nop | .clear | .build | .gen | .flush => 0

/-- The encoder: OPC, RSVD = 0, ARG, laid out from bit 31 down (R60, R62). -/
def encode (i : Instr) : Word := opcOf i ++ (0 : BitVec 16) ++ argOf i

/-- The column "word (match)" of R62, without the symbol. -/
def matchWord : Instr → Word
  | .nop => 0x00000000
  | .clear => 0x01000000
  | .build => 0x02000000
  | .gen => 0x03000000
  | .enc _ => 0x04000000
  | .flush => 0x05000000

/-- The column "mask" of R62. -/
def maskWord : Instr → Word
  | .enc _ => 0xFFFFFF00
  | .nop | .clear | .build | .gen | .flush => 0xFFFFFFFF

/-- The CLEAR word, which R68 and R69 compare a written word with. -/
def clearWord : Word := 0x01000000

end Sys2Proof
end

