-- ==== Sys2Proof/Machine/HostSyntax.lean ====
section
/-! DEFINITION. Host programs (spec/30_encoding.md R65 to R67): the lines a program is written in, their expansion
into the operations the Host agent takes, and the accesses those stand for. -/

namespace Sys2Proof.Machine

/-- One operation of the Host agent. `wr` and `rd` carry the access width in bytes, so that an access R45 does not
admit can be written down and refused. `popToOut` is the pop inside `wait` and `popall`, which appends the byte to
OUT (R66). `reset` is the reset input of R113 and R120. -/
inductive HostOp where
  | wr (off : Offset) (size : Nat) (val : Word)
  | rd (off : Offset) (size : Nat) (name : String)
  | wait
  | popall
  | popToOut
  | reset
deriving DecidableEq, Repr

/-- One access as made: what R67 writes `(W, OFF, VAL)` or `(R, OFF) -> VAL`; and the reset event of R113. -/
inductive Event where
  | write (off : Offset) (val : Word)
  | read (off : Offset) (val : Word)
  | reset
deriving DecidableEq, Repr

/-- One access of a program's encoding (R67). -/
inductive Access where
  | write (off : Offset) (val : Word)
  | read (off : Offset)
deriving DecidableEq, Repr

/-- One line of a host program (R65, R66). `cmd i` is the line `nop`, `clear`, `build`, `gen`, `enc S` or `flush`. -/
inductive Line where
  | wr (off : Offset) (val : Word)
  | rd (off : Offset) (name : String)
  | cmd (i : Instr)
  | setf (s : Byte) (v : Word)
  | pop (name : String)
  | wait
  | issue (i : Instr)
  | popall
  | encs (text : List Byte)
deriving DecidableEq, Repr

/-- Offset of CMD (spec/10_state.md R17). -/
def cmdOff : Offset := 0x0004

/-- Offset of STATUS (R17). -/
def statusOff : Offset := 0x0008

/-- Offset of OUT_DATA (R17). -/
def outDataOff : Offset := 0x0028

/-- Offset of FREQ[s] (R17). -/
def freqOff (s : Byte) : Offset := BitVec.ofNat 15 (0x0400 + 4 * s.toNat)

/-- `wr OFF, VAL`: the 32-bit write MemWrite(OFF, 4, VAL) (R65). -/
def writeOp (off : Offset) (v : Word) : HostOp := .wr off 4 v

/-- `rd OFF -> NAME`: the 32-bit read MemRead(OFF, 4) (R65). -/
def readOp (off : Offset) (name : String) : HostOp := .rd off 4 name

/-- The write of a command's word to CMD (R65). -/
def cmdOp (i : Instr) : HostOp := writeOp cmdOff (encode i)

/-- `issue C`: `wait`, then C (R66). -/
def issueOps (i : Instr) : List HostOp := [.wait, cmdOp i]

/-- The expansion of one line into the Host's operations (R65, R66). `wait` and `popall` unfold as the Host runs
them, since their loops depend on what is read. -/
def expandLine : Line → List HostOp
  | .wr off v => [writeOp off v]
  | .rd off name => [readOp off name]
  | .cmd i => [cmdOp i]
  | .setf s v => [writeOp (freqOff s) v]
  | .pop name => [readOp outDataOff name]
  | .wait => [.wait]
  | .issue i => issueOps i
  | .popall => [.popall]
  | .encs text => text.flatMap fun b => issueOps (.enc b)

/-- The expansion of a host program, a list of lines (R65). -/
def expand (p : List Line) : List HostOp := p.flatMap expandLine

/-- The fixed encoding of an operation, if it has one: a loop has none, and reset is no access (R67). -/
def encodeOp : HostOp → Option Access
  | .wr off _ v => some (.write off v)
  | .rd off _ _ => some (.read off)
  | .popToOut => some (.read outDataOff)
  | .wait | .popall | .reset => none

/-- The fixed encoding of a host program (R67), `none` if some line has none. -/
def encodeProgram (p : List Line) : Option (List Access) := (expand p).mapM encodeOp

/-- The access of an event; the encoding of a run is the accesses it made (R67). -/
def accessOf : Event → Option Access
  | .write off v => some (.write off v)
  | .read off _ => some (.read off)
  | .reset => none

/-- R45: an access is admitted when it is 32 bits wide at an offset that is a multiple of 4. -/
def admitted (off : Offset) (size : Nat) : Bool := size == 4 && off.toNat % 4 == 0

end Sys2Proof.Machine
end

