-- ==== Sys2Proof/Machine/State.lean ====
section
/-! DEFINITION. The state of the HTB (spec/10_state.md R13) and of the Host beside it, as plain data; the reasons a
step can stop; the state after reset (R41, R113). -/

namespace Sys2Proof.Machine

/-- The run phase (R14). Codes 5 and 6 are never held. -/
inductive Phase where
  | load
  | tree
  | coded
  | encode
  | done
  | error
deriving DecidableEq, Repr

/-- ERR_CAUSE (spec/60_exceptions.md R95). Codes 8..15 are never raised. -/
inductive Cause where
  | none
  | emptyTable
  | noTree
  | missingCode
  | badSequence
  | illegalCmd
  | busyWrite
  | freqLocked
deriving DecidableEq, Repr

/-- One slot of the node arena (R33). -/
structure Node where
  valid : Bool
  leaf : Bool
  f : BitVec 40
  left : BitVec 9
  right : BitVec 9
deriving DecidableEq, Repr

/-- The two agents (spec/00_scope.md R5). -/
inductive Agent where
  | host
  | engine
deriving DecidableEq, Repr

/-- The frequency table FREQ[0..255] (R32). -/
abbrev FreqTable := Vector Word 256

/-- The node arena NODE[0..510] (R33). -/
abbrev Arena := Vector Node 511

/-- The code table CODE[0..255] (R35). -/
abbrev CodeTable := Vector Bits 256

/-- The Host agent: what it has still to do, and what it holds (spec/30_encoding.md R65 to R67). All of it is the
model's own record of the outside world (log 1). -/
structure HostState where
  prog : List HostOp            -- operations still to do, next one first
  vars : List (String × Word)   -- host variables, newest binding first
  out : List Byte               -- OUT (R66)
  trace : List Event            -- the accesses made, oldest first (R67)
deriving DecidableEq, Repr

/-- The state. The fields down to `errInfo` are the elements of R13; the rest is the model's own. No field is a mode or
is kept per mode: the HTB has one access level (spec/60_exceptions.md R110). -/
structure State where
  phase : Phase
  cmdPending : Option Word
  freq : FreqTable
  node : Arena
  rootValid : Bool
  rootIdx : BitVec 9
  symcount : Nat                -- 0..256
  code : CodeTable
  bitbuf : Bits                 -- length 0..262
  fifo : List Byte              -- oldest first, length 0..OUT_FIFO_DEPTH
  pad : Nat                     -- 0..7
  inCount : Word
  outCount : Word
  errCause : Cause
  errMulti : Bool
  errInfo : Word
  params : Params               -- the configuration of R6; no step changes it (log 4)
  draws : Nat                   -- how many draws (R10) were made (log 3)
  sched : List Agent            -- who moves next (log 2)
  host : HostState
deriving DecidableEq, Repr

/-- Why the machine stops. -/
inductive Fault where
  /-- Raised by GEN alone, over an arena that is no tree: a path of LEFT and RIGHT links that does not end, or that
  names a slot or a symbol that does not exist. The recursion of R82 then has no result. R81 shows that no run makes
  such an arena. Safe (log 7). -/
  | arenaNotTree
deriving DecidableEq, Repr

/-- Why a step has no meaning. -/
inductive Refusal where
  /-- Raised by an arm of `exec` whose command has no meaning yet. Safe. No arm raises it. -/
  | notModelled (mnemonic : String)
  /-- Raised by a Host access of a width other than 32 bits or at an offset that is no multiple of 4: "A model refuses
  a Host program that makes such an access" (spec/20_memory.md R45). Safe (log 5). -/
  | notAdmitted (off : Offset) (size : Nat)
deriving DecidableEq, Repr

/-- The slot with all fields 0 (R13, R72, R75). -/
def emptyNode : Node := { valid := false, leaf := false, f := 0, left := 0, right := 0 }

/-- The Host with nothing to do and nothing recorded (log 1). -/
def idleHost : HostState := { prog := [], vars := [], out := [], trace := [] }

/-- The state when reset is released (R13, R41, R113). CMD_PENDING holds the reset CLEAR. The last four fields are
the model's own (logs 1 to 4). -/
def State.reset : State where
  phase := .load
  cmdPending := some 0x01000000
  freq := Vector.replicate 256 0
  node := Vector.replicate 511 emptyNode
  rootValid := false
  rootIdx := 0
  symcount := 0
  code := Vector.replicate 256 []
  bitbuf := []
  fifo := []
  pad := 0
  inCount := 0
  outCount := 0
  errCause := .none
  errMulti := false
  errInfo := 0
  params := Config.params
  draws := 0
  sched := []
  host := idleHost

end Sys2Proof.Machine
end

