-- ==== Sys2Proof/Machine/Flags.lean ====
section
/-! DEFINITION. The derived flags of spec/10_state.md R16 and the enabling conditions of the Engine's two steps
(spec/40_control.md R69, spec/43_bit_encoder.md R89). -/

namespace Sys2Proof.Machine

/-- PENDING (R16). -/
def State.pending (s : State) : Bool := s.cmdPending.isSome

/-- DRAIN (R16): a full byte waits in BITBUF. -/
def State.drainFlag (s : State) : Bool := decide (8 ≤ s.bitbuf.length)

/-- BUSY (R16): the Engine has work left. -/
def State.busy (s : State) : Bool := s.pending || s.drainFlag

/-- STATUS.OUT_VALID (R21). -/
def State.outValid (s : State) : Bool := decide (0 < s.fifo.length)

/-- STATUS.OUT_FULL (R21). -/
def State.outFull (s : State) : Bool := decide (s.fifo.length = s.params.outFifoDepth)

/-- The DRAIN step is enabled (R89): nothing pending, 8 bits or more, room in FIFO. -/
def State.drainReady (s : State) : Bool :=
  !s.pending && s.drainFlag && decide (s.fifo.length < s.params.outFifoDepth)

/-- DRAIN is held on a full FIFO (R89): the Engine has no step although BUSY is 1. -/
def State.drainHeld (s : State) : Bool :=
  !s.pending && s.drainFlag && !decide (s.fifo.length < s.params.outFifoDepth)

/-- The Engine has an enabled step (R69, R89). -/
def State.engineReady (s : State) : Bool := s.pending || s.drainReady

end Sys2Proof.Machine
end

