-- ==== Sys2Proof/Machine/Operands.lean ====
section
/-! DEFINITION. The operands of commands and accesses: entries of the tables, bit strings as numbers (spec/00_scope.md
R8), and the register that an offset names (spec/10_state.md R17). -/

namespace Sys2Proof.Machine

/-- `val(c)`: the first bit has the most weight; `val("") = 0` (R8). -/
def bitsVal (c : Bits) : Nat := c.foldl (fun acc b => 2 * acc + b.toNat) 0

/-- FREQ[s]. -/
def freqAt (t : FreqTable) (s : Byte) : Word := t[s.toNat]'s.isLt

/-- CODE[s]. -/
def codeAt (t : CodeTable) (s : Byte) : Bits := t[s.toNat]'s.isLt

/-- NODE[n], if the arena has a slot n. -/
def slot? (a : Arena) (n : Nat) : Option Node := a.toList[n]?

/-- NODE[n] for an index that names a slot; any other reads as an empty slot. -/
def nodeAt (a : Arena) (n : Nat) : Node := (slot? a n).getD emptyNode

/-- NODE[n] <- x for an index that names a slot; any other leaves the arena as it is. -/
def setNode (a : Arena) (n : Nat) (x : Node) : Arena := ⟨⟨a.toList.set n x⟩, by simp⟩

/-- What an offset of the window names (R17). -/
inductive Reg where
  | id
  | cmd
  | status
  | err
  | errInfo
  | symcount
  | root
  | pad
  | inCount
  | outCount
  | outData
  | param
  | bitbufLen
  | freq (s : Byte)
  | codeLen (s : Byte)
  | codeBits (s : Byte) (j : Fin 8)
  | node (n : Nat) (w : Fin 4)
  | reserved
deriving DecidableEq, Repr

/-- The register map below 0x0400 (R17). -/
def controlReg (n : Nat) : Reg :=
  match n with
  | 0x0000 => .id
  | 0x0004 => .cmd
  | 0x0008 => .status
  | 0x000C => .err
  | 0x0010 => .errInfo
  | 0x0014 => .symcount
  | 0x0018 => .root
  | 0x001C => .pad
  | 0x0020 => .inCount
  | 0x0024 => .outCount
  | 0x0028 => .outData
  | 0x002C => .param
  | 0x0030 => .bitbufLen
  | _ => .reserved

/-- The register map (R17). Only offsets that are a multiple of 4 are ever looked up (R45). -/
def regAt (off : Offset) : Reg :=
  let n := off.toNat
  if n < 0x0400 then controlReg n
  else if n < 0x0800 then .freq (BitVec.ofNat 8 ((n - 0x0400) / 4))
  else if n < 0x0C00 then .codeLen (BitVec.ofNat 8 ((n - 0x0800) / 4))
  else if n < 0x2000 then .reserved
  else if n < 0x4000 then .codeBits (BitVec.ofNat 8 ((n - 0x2000) / 32)) (Fin.ofNat 8 ((n - 0x2000) % 32 / 4))
  else if n < 0x5FF0 then .node ((n - 0x4000) / 16) (Fin.ofNat 4 ((n - 0x4000) % 16 / 4))
  else .reserved

/-- The offset of the window that a bus address names; `none` is no access to the HTB (spec/20_memory.md R42, R43). -/
def busOffset (p : Params) (addr : Nat) : Option Offset :=
  if p.base ≤ addr ∧ addr < p.base + 0x8000 then some (BitVec.ofNat 15 (addr - p.base)) else none

end Sys2Proof.Machine
end

