-- ==== Sys2Proof/Machine/Registers.lean ====
section
/-! DEFINITION. The value each register of the window reads (spec/10_state.md R18 to R36), its layout written from
bit 31 down, and the two cases in which a read is a draw (R40). -/

namespace Sys2Proof.Machine

/-- The code of a phase, as STATUS.PHASE reads it (R14). -/
def phaseCode : Phase → BitVec 3
  | .load => 0
  | .tree => 1
  | .coded => 2
  | .encode => 3
  | .done => 4
  | .error => 7

/-- The code of a cause, as ERR.CAUSE reads it (R95). -/
def causeCode : Cause → BitVec 4
  | .none => 0
  | .emptyTable => 1
  | .noTree => 2
  | .missingCode => 3
  | .badSequence => 4
  | .illegalCmd => 5
  | .busyWrite => 6
  | .freqLocked => 7

/-- One bit of a register. -/
def bit (b : Bool) : BitVec 1 := BitVec.ofBool b

/-- ID: the constant "HTB1" (R18). -/
def idWord : Word := 0x48544231

/-- PARAM (R19). -/
def paramWord (p : Params) : Word := (0 : BitVec 8) ++ (255 : BitVec 8) ++ BitVec.ofNat 16 p.outFifoDepth

/-- STATUS (R21). -/
def statusWord (s : State) : Word :=
  BitVec.ofNat 16 s.fifo.length ++ (0 : BitVec 6) ++ bit s.outFull ++ bit s.outValid ++
    (0 : BitVec 1) ++ phaseCode s.phase ++ (0 : BitVec 1) ++ bit s.drainFlag ++ bit s.pending ++ bit s.busy

/-- ERR (R22). -/
def errWord (s : State) : Word :=
  (0 : BitVec 23) ++ bit s.errMulti ++ (0 : BitVec 4) ++ causeCode s.errCause

/-- ROOT (R25). -/
def rootWord (s : State) : Word := bit s.rootValid ++ (0 : BitVec 22) ++ s.rootIdx

/-- OUT_DATA before the pop (R29). -/
def outDataWord (s : State) : Word :=
  match s.fifo with
  | [] => 0
  | b :: _ => (0 : BitVec 23) ++ bit true ++ b

/-- NODE[n] word w (R34). -/
def nodeWord (x : Node) (w : Fin 4) : Word :=
  match w with
  | 0 => x.f.extractLsb' 0 32
  | 1 => bit x.valid ++ bit x.leaf ++ (0 : BitVec 22) ++ x.f.extractLsb' 32 8
  | 2 => (0 : BitVec 7) ++ x.right ++ (0 : BitVec 7) ++ x.left
  | 3 => 0

/-- CODE_LEN[s] (R35): the length in bits [7:0]. -/
def codeLenWord (c : Bits) : Word := (0 : BitVec 24) ++ BitVec.ofNat 8 c.length

/-- CODE_BITS[s][j] (R36): slice j of the 256-bit number val(CODE[s]). -/
def codeBitsWord (c : Bits) (j : Fin 8) : Word := (BitVec.ofNat 256 (bitsVal c)).extractLsb' (32 * j.val) 32

/-- The exact value of a register (R18 to R36). -/
def regValue (s : State) : Reg → Word
  | .id => idWord
  | .cmd => 0
  | .status => statusWord s
  | .err => errWord s
  | .errInfo => s.errInfo
  | .symcount => (0 : BitVec 23) ++ BitVec.ofNat 9 s.symcount
  | .root => rootWord s
  | .pad => (0 : BitVec 29) ++ BitVec.ofNat 3 s.pad
  | .inCount => s.inCount
  | .outCount => s.outCount
  | .outData => outDataWord s
  | .param => paramWord s.params
  | .bitbufLen => (0 : BitVec 23) ++ BitVec.ofNat 9 s.bitbuf.length
  | .freq x => freqAt s.freq x
  | .codeLen x => codeLenWord (codeAt s.code x)
  | .codeBits x j => codeBitsWord (codeAt s.code x) j
  | .node n w => nodeWord (nodeAt s.node n) w
  | .reserved => 0

/-- The registers that read any value while PENDING = 1 (R40 case 1). -/
def drawnWhilePending : Reg → Bool
  | .freq _ | .symcount | .root | .pad | .inCount | .outCount | .bitbufLen | .codeLen _ | .codeBits _ _
  | .node _ _ => true
  | .id | .cmd | .status | .err | .errInfo | .outData | .param | .reserved => false

/-- The registers that read any value in ERROR (R40 case 2): the same but BITBUF_LEN. -/
def drawnInError : Reg → Bool
  | .freq _ | .symcount | .root | .pad | .inCount | .outCount | .codeLen _ | .codeBits _ _ | .node _ _ => true
  | .id | .cmd | .status | .err | .errInfo | .outData | .param | .bitbufLen | .reserved => false

/-- A read of the register is a draw (R40). -/
def isDraw (s : State) (r : Reg) : Bool :=
  (s.pending && drawnWhilePending r) || (decide (s.phase = .error) && drawnInError r)

end Sys2Proof.Machine
end

