-- ==== Sys2Proof/Machine/Ops.lean ====
section
/-! DEFINITION. The named operations on the state: the error entry (spec/60_exceptions.md R105), CLEAR's effect
(spec/40_control.md R72), reset (spec/70_reset_and_hazards.md R113), the Host's reads and writes (spec/20_memory.md
R49 to R52, R68), and what commands do before their own effect (R69, R70). -/

namespace Sys2Proof.Machine

/-- What one step or command answers. -/
abbrev Result := Host.Outcome State Fault Refusal

/-- `raise C(info)` (R105): the one error entry. In ERROR it sets ERR_MULTI and nothing else (R106). -/
def State.raise (s : State) (c : Cause) (info : Word) : State :=
  if s.phase = .error then { s with errMulti := true }
  else { s with errCause := c, errInfo := info, phase := .error, cmdPending := none, bitbuf := [], fifo := [] }

/-- `do_clear()` (R72). CMD_PENDING was emptied by EXEC; the configuration does not change. -/
def State.doClear (s : State) : State :=
  { s with
    phase := .load
    freq := Vector.replicate 256 0
    node := Vector.replicate 511 emptyNode
    rootValid := false
    rootIdx := 0
    symcount := 0
    code := Vector.replicate 256 []
    bitbuf := []
    fifo := []
    pad := 0
    inCount := 0
    outCount := 0
    errCause := .none
    errMulti := false
    errInfo := 0 }

/-- The reset input (R113): every element of R13 takes its reset value, whatever went before. The configuration and
the Host's own record stay (log 6). -/
def State.applyReset (s : State) : State :=
  { State.reset with params := s.params, draws := s.draws, sched := s.sched, host := s.host }

/-- `accept(v)` (R68): a Host write to CMD. CLEAR is accepted even while BUSY; nothing is decoded yet. -/
def State.accept (s : State) (v : Word) : State :=
  if v = clearWord then { s with cmdPending := some v }
  else if s.busy then s.raise .busyWrite 0x00000004
  else { s with cmdPending := some v }

/-- `freq_write(s, off, v)` (R50): a Host write of v to FREQ[x]. -/
def State.freqWrite (s : State) (x : Byte) (off : Offset) (v : Word) : State :=
  if s.busy then s.raise .busyWrite (off.setWidth 32)
  else if s.phase ≠ .load then s.raise .freqLocked (off.setWidth 32)
  else { s with freq := s.freq.set x.toNat v x.isLt }

/-- `MemWrite(off, 4, v)` (R49): only CMD and FREQ take a write; every other write is ignored. -/
def State.memWrite (s : State) (off : Offset) (v : Word) : State :=
  match regAt off with
  | .cmd => s.accept v
  | .freq x => s.freqWrite x off v
  | .id | .status | .err | .errInfo | .symcount | .root | .pad | .inCount | .outCount | .outData | .param
  | .bitbufLen | .codeLen _ | .codeBits _ _ | .node _ _ | .reserved => s

/-- The word `MemRead(off, 4)` returns (R40): a draw in its two cases, else the register's value. -/
def State.readWord (s : State) (off : Offset) : Word :=
  if isDraw s (regAt off) then Config.draw s.draws else regValue s (regAt off)

/-- The state after `MemRead(off, 4)`: a draw is used up, a read of OUT_DATA pops (R51), and no other read changes
anything (R52). -/
def State.afterRead (s : State) (off : Offset) : State :=
  if isDraw s (regAt off) then { s with draws := s.draws + 1 }
  else if regAt off = .outData then { s with fifo := s.fifo.tail }
  else s

/-- `check_phase` (R70): the cause a legal command raises in a phase that does not admit it. CLEAR and ERROR never
reach it (R69). -/
def phaseError (i : Instr) (p : Phase) : Option Cause :=
  match i, p with
  | .build, .load => none
  | .build, _ => some .badSequence
  | .gen, .load => some .noTree
  | .gen, .tree => none
  | .gen, _ => some .badSequence
  | .enc _, .coded => none
  | .enc _, .encode => none
  | .enc _, _ => some .badSequence
  | .flush, .coded => none
  | .flush, .encode => none
  | .flush, _ => some .badSequence
  | .nop, _ => none
  | .clear, _ => none

/-- What BUILD, GEN, ENC and FLUSH do before their own effect (R69): in ERROR they set ERR_MULTI only; in a phase that
does not admit them they raise the cause of R70 with the command word; else `run` is the command's effect. -/
def guarded (i : Instr) (s : State) (run : State → Result) : Result :=
  if s.phase = .error then .next { s with errMulti := true }
  else
    match phaseError i s.phase with
    | some c => .next (s.raise c (encode i))
    | none => run s

end Sys2Proof.Machine
end

