-- ==== Sys2Proof/Machine/BitEncoder.lean ====
section
/-! DEFINITION. ENC, FLUSH and the Engine's DRAIN step (spec/43_bit_encoder.md R87 to R89). -/

namespace Sys2Proof.Machine

/-- The effect of ENC x in CODED or ENCODE (R87): MISSING_CODE before any write, else the code goes to the end of
BITBUF. -/
def runEnc (x : Byte) (s : State) : Result :=
  if codeAt s.code x = [] then .next (s.raise .missingCode (x.setWidth 32))
  else
    .next { s with
      bitbuf := s.bitbuf ++ codeAt s.code x
      inCount := s.inCount + 1
      phase := .encode }

/-- ENC (R87). -/
def execEnc (x : Byte) (s : State) : Result := guarded (.enc x) s (runEnc x)

/-- The padding count for r remaining bits (R88): 8 - r, or 0 when nothing remains. -/
def padOf (r : Nat) : Nat := if 0 < r then 8 - r else 0

/-- The effect of FLUSH in CODED or ENCODE (R88), with r = len(BITBUF), 0..7 in every run (log 8). -/
def runFlush (s : State) : Result :=
  .next { s with
    bitbuf := s.bitbuf ++ List.replicate (padOf s.bitbuf.length) false
    pad := padOf s.bitbuf.length
    phase := .done }

/-- FLUSH (R88). -/
def execFlush (s : State) : Result := guarded .flush s runFlush

/-- The byte DRAIN packs (R89): the first bit is bit 7, the eighth bit 0. -/
def leadByte (b : Bits) : Byte := BitVec.ofNat 8 (bitsVal (b.take 8))

/-- The DRAIN step (R89), taken only where `State.drainReady` holds. -/
def State.drain (s : State) : State :=
  { s with
    bitbuf := s.bitbuf.drop 8
    fifo := s.fifo ++ [leadByte s.bitbuf]
    outCount := s.outCount + 1 }

end Sys2Proof.Machine
end

