-- ==== Sys2Proof/Machine/CodeGenerator.lean ====
section
/-! DEFINITION. GEN (spec/42_code_generator.md R82 to R85). -/

namespace Sys2Proof.Machine

/-- CODE[n] <- p for the leaf in slot n, whose index is its symbol (R82). `none` when n is no symbol. -/
def writeCode (t : CodeTable) (n : Nat) (p : Bits) : Option CodeTable :=
  if h : n < 256 then some (t.set n p h) else none

/-- `assign(n, p)` (R82): LEFT is "0" and RIGHT is "1". The first argument bounds the depth: a path longer than the
arena has slots repeats a slot and never ends, and then, or when a link names no slot, there is no result. -/
def assign (a : Arena) : Nat → Nat → Bits → CodeTable → Option CodeTable
  | 0, _, _, _ => none
  | depth + 1, n, p, t =>
    match slot? a n with
    | none => none
    | some x =>
      if x.leaf then writeCode t n p
      else
        match assign a depth x.left.toNat (p ++ [false]) t with
        | none => none
        | some t' => assign a depth x.right.toNat (p ++ [true]) t'

/-- The code table of a tree: the lone symbol gets "0" (R83), else every leaf its path (R82, R85). -/
def codesOf (s : State) : Option CodeTable :=
  if s.symcount = 1 then writeCode (Vector.replicate 256 []) s.rootIdx.toNat [false]
  else assign s.node 511 s.rootIdx.toNat [] (Vector.replicate 256 [])

/-- The effect of GEN in TREE (R85). The fault is for arenas no run makes (log 7). -/
def runGen (s : State) : Result :=
  match codesOf s with
  | none => .fault .arenaNotTree
  | some t => .next { s with code := t, phase := .coded }

/-- GEN (R85). -/
def execGen (s : State) : Result := guarded .gen s runGen

end Sys2Proof.Machine
end

