-- ==== Sys2Proof/Machine/Control.lean ====
section
/-! DEFINITION. NOP and CLEAR (spec/40_control.md R71, R72). -/

namespace Sys2Proof.Machine

/-- NOP (R71): nothing, in every phase; in ERROR it sets nothing. -/
def execNop (s : State) : Result := .next s

/-- CLEAR (R72): legal in every phase, never an error. -/
def execClear (s : State) : Result := .next s.doClear

end Sys2Proof.Machine
end

