-- ==== Sys2Proof/Machine/TreeBuilder.lean ====
section
/-! DEFINITION. BUILD (spec/41_tree_builder.md R75 to R80): the seed, the priority order, one merge, the root. -/

namespace Sys2Proof.Machine

/-- The arena and the priority collection Q during one EXEC of BUILD (spec/10_state.md R39). Q is a set of arena
indices, held as a list without repeats. -/
structure Builder where
  arena : Arena
  q : List Nat
deriving DecidableEq, Repr

/-- K of R75: the symbols with a non-zero frequency, ascending. -/
def symbolsOf (t : FreqTable) : List Nat := (t.toList.zipIdx.filter fun e => e.1 ≠ 0).map Prod.snd

/-- The leaf slot of a symbol with frequency v (R33, R75): a leaf, or all zeros when v is 0. -/
def leafNode (v : Word) : Node :=
  if v = 0 then emptyNode else { valid := true, leaf := true, f := v.setWidth 40, left := 0, right := 0 }

/-- The internal node with children a and b (R77). -/
def innerNode (arena : Arena) (a b : Nat) : Node :=
  { valid := true
    leaf := false
    f := (nodeAt arena a).f + (nodeAt arena b).f
    left := BitVec.ofNat 9 a
    right := BitVec.ofNat 9 b }

/-- The arena after the seed (R33, R75): 256 leaf slots, then 255 internal slots, all zeros. -/
def seedArena (t : FreqTable) : Arena := ⟨⟨t.toList.map leafNode ++ List.replicate 255 emptyNode⟩, by
    rw [List.size_toArray, List.length_append, List.length_map, List.length_replicate, Vector.length_toList]⟩

/-- The seed (R75): every slot cleared, one leaf per symbol of K in its own slot; Q is K. -/
def seed (t : FreqTable) : Builder where
  arena := seedArena t
  q := symbolsOf t

/-- `key(x) < key(y)` for `key(n) = (NODE[n].F, n)`, lexicographic and ascending (R76). -/
def keyLt (a : Arena) (x y : Nat) : Bool :=
  decide ((nodeAt a x).f < (nodeAt a y).f) || (decide ((nodeAt a x).f = (nodeAt a y).f) && decide (x < y))

/-- The index with the least key among x and a list (R76). -/
def least (a : Arena) : Nat → List Nat → Nat
  | x, [] => x
  | x, y :: ys => if keyLt a y x then least a y ys else least a x ys

/-- Removes the least of Q (R77): its index and the rest of Q. -/
def popLeast (a : Arena) : List Nat → Option (Nat × List Nat)
  | [] => none
  | x :: xs => some (least a x xs, (x :: xs).erase (least a x xs))

/-- `merge(m)` (R77): the first removed is LEFT, the second RIGHT, the parent is slot 256 + m. `none` when |Q| < 2,
where no merge is applied. -/
def merge (m : Nat) (b : Builder) : Option Builder :=
  match popLeast b.arena b.q with
  | none => none
  | some (x, q1) =>
    match popLeast b.arena q1 with
    | none => none
    | some (y, q2) =>
      some { arena := setNode b.arena (256 + m) (innerNode b.arena x y), q := q2 ++ [256 + m] }

/-- Merges m, m + 1, ... while |Q| > 1 (R78), at most `k` of them; each takes |Q| down by one, so |Q| is enough. -/
def mergeAll : Nat → Nat → Builder → Builder
  | 0, _, b => b
  | k + 1, m, b =>
    match merge m b with
    | none => b
    | some b' => mergeAll k (m + 1) b'

/-- The arena and the last Q of a BUILD from a frequency table (R75 to R78). -/
def buildTree (t : FreqTable) : Builder := mergeAll (seed t).q.length 0 (seed t)

/-- The root (R78): the one node left in Q. -/
def rootOf (b : Builder) : Nat := b.q.headD 0

/-- The effect of BUILD in LOAD (R80): EMPTY_TABLE before any write, else the tree, its root and the phase. -/
def runBuild (s : State) : Result :=
  if symbolsOf s.freq = [] then .next (s.raise .emptyTable 0x00000000)
  else
    .next { s with
      node := (buildTree s.freq).arena
      symcount := (symbolsOf s.freq).length
      rootValid := true
      rootIdx := BitVec.ofNat 9 (rootOf (buildTree s.freq))
      phase := .tree }

/-- BUILD (R80). -/
def execBuild (s : State) : Result := guarded .build s runBuild

end Sys2Proof.Machine
end

