-- ==== Sys2Proof/Machine/Dispatch.lean ====
section
/-! DEFINITION. `run(opc, arg)` of spec/40_control.md R69: the command's meaning, one arm per constructor. -/

namespace Sys2Proof.Machine

def exec (i : Instr) (s : State) : Host.Outcome State Fault Refusal :=
  match i with
  | .nop => Sys2Proof.Machine.execNop s
  | .clear => Sys2Proof.Machine.execClear s
  | .build => Sys2Proof.Machine.execBuild s
  | .gen => Sys2Proof.Machine.execGen s
  | .enc x => Sys2Proof.Machine.execEnc x s
  | .flush => Sys2Proof.Machine.execFlush s

end Sys2Proof.Machine
end

