-- ==== Sys2Proof/Machine/Agents.lean ====
section
/-! DEFINITION. One step of each agent (spec/00_scope.md R5) and the choice between them. -/

namespace Sys2Proof.Machine

/-- EXEC on the taken word w, CMD_PENDING already emptied (R69). An illegal word raises ILLEGAL_CMD, which in ERROR
is MULTI alone (R63, R105). -/
def execWord (w : Word) (s : State) : Result :=
  match decode w with
  | .ok i => exec i s
  | .error _ => .next (s.raise .illegalCmd w)

/-- The Engine's step: EXEC when a command is pending, else DRAIN when enabled (R69, R89, D36); else it has none. -/
def engineStep (s : State) : Result :=
  match s.cmdPending with
  | some w => execWord w { s with cmdPending := none }
  | none => if s.drainReady then .next s.drain else .next s

/-- Adds an access to the Host's record (R67). -/
def State.record (s : State) (e : Event) : State := { s with host := { s.host with trace := s.host.trace ++ [e] } }

/-- Binds a host variable (R65). -/
def State.bind (s : State) (name : String) (v : Word) : State :=
  { s with host := { s.host with vars := (name, v) :: s.host.vars } }

/-- Puts operations before the rest of the program. -/
def State.push (s : State) (ops : List HostOp) : State := { s with host := { s.host with prog := ops ++ s.host.prog } }

/-- Appends a byte to OUT (R66). -/
def State.emit (s : State) (b : Byte) : State := { s with host := { s.host with out := s.host.out ++ [b] } }

/-- A Host write as one access (R48, R49). -/
def hostWrite (off : Offset) (v : Word) (s : State) : State := (s.memWrite off v).record (.write off v)

/-- A Host read into a variable as one access (R40, R48, R51, R65). -/
def hostRead (off : Offset) (name : String) (s : State) : State :=
  ((s.afterRead off).record (.read off (s.readWord off))).bind name (s.readWord off)

/-- What `wait` does after it has read st from STATUS (R66): pop if OUT_VALID, go on if BUSY. -/
def waitNext (st : Word) : List HostOp :=
  (if st.getLsbD 8 then [.popToOut] else []) ++ (if st.getLsbD 0 then [.wait] else [])

/-- What `popall` does after it has read st from STATUS (R66): pop and go on if OUT_VALID, else go on if BUSY. -/
def popallNext (st : Word) : List HostOp :=
  if st.getLsbD 8 then [.popToOut, .popall] else if st.getLsbD 0 then [.popall] else []

/-- One operation of the Host, already taken off its program (R48, R65, R66, R113, R120). Each makes at most one
access. An access that R45 does not admit is refused (log 5); every other is allowed in every state, since no mode and
no permission exists to be asked for (spec/20_memory.md R44, spec/60_exceptions.md R110). -/
def hostOp (op : HostOp) (s : State) : Result :=
  match op with
  | .wr off size v => if admitted off size then .next (hostWrite off v s) else .refused (.notAdmitted off size)
  | .rd off size name => if admitted off size then .next (hostRead off name s) else .refused (.notAdmitted off size)
  | .wait => .next ((hostRead statusOff "st" s).push (waitNext (s.readWord statusOff)))
  | .popall => .next ((hostRead statusOff "st" s).push (popallNext (s.readWord statusOff)))
  | .popToOut => .next ((hostRead outDataOff "b" s).emit ((s.readWord outDataOff).extractLsb' 0 8))
  | .reset => .next (s.applyReset.record .reset)

/-- The Host's step: its next operation, if it has one. -/
def hostStep (s : State) : Result :=
  match s.host.prog with
  | [] => .next s
  | op :: rest => hostOp op { s with host := { s.host with prog := rest } }

/-- The Host has an operation left. -/
def State.hostReady (s : State) : Bool := !s.host.prog.isEmpty

/-- Who moves next (R48, R55, log 2): the agent the schedule names, if it has a step, else the other, if it has one.
After the schedule the Engine goes first, so an enabled Engine step is always taken (R119). -/
def State.nextAgent (s : State) : Option Agent :=
  match s.sched with
  | .host :: _ => if s.hostReady then some .host else if s.engineReady then some .engine else none
  | _ => if s.engineReady then some .engine else if s.hostReady then some .host else none

/-- One entry of the schedule used up. -/
def State.advance (s : State) : State := { s with sched := s.sched.tail }

/-- One step of the whole (R5). With no step enabled the run is over (spec/70_reset_and_hazards.md R122) and the
state stays. -/
def nextStep (s : State) : Result :=
  match s.nextAgent with
  | some .engine => engineStep s.advance
  | some .host => hostStep s.advance
  | none => .next s

/-- The state with word w pending and the Engine to move: the very next step is EXEC of w (log 11). -/
def State.withPending (s : State) (w : Word) : State := { s with cmdPending := some w, sched := .engine :: s.sched }

end Sys2Proof.Machine
end

