-- ==== Sys2Proof/Machine/Step.lean ====
section
/-! DEFINITION. The step of the machine, and a command placed where the next step takes it. -/

namespace Sys2Proof.Machine

/-- One step of the Host or of the Engine (spec/00_scope.md R5). -/
def step (s : State) : Host.Outcome State Fault Refusal := nextStep s

/-- The HTB fetches nothing (spec/10_state.md R12): a command runs when it is in CMD_PENDING and the Engine moves. -/
def State.withFetchWord (s : State) (nbits w : Nat) : State := s.withPending (tableWord nbits w)

end Sys2Proof.Machine
end

