-- ==== Sys2Proof/Machine/Observation.lean ====
section
/-! DEFINITION. When a run of a host program is over or complete, and what is observed of it
(spec/70_reset_and_hazards.md R122). -/

namespace Sys2Proof.Machine

/-- A run is over (R122): the program has made its last access and the Engine has no enabled step. -/
def State.over (s : State) : Bool := !s.hostReady && !s.engineReady

/-- A run is complete (R122): over, no DRAIN held, and no byte left in FIFO. R122 says of a complete run that OUT does
not depend on the interleaving, which a byte left in FIFO would break (DEDUCED, log 15). -/
def State.complete (s : State) : Bool := s.over && !s.drainHeld && s.fifo.isEmpty

/-- The byte that an access popped (spec/20_memory.md R51): a read of OUT_DATA that returned VALID. -/
def poppedBy : Event → Option Byte
  | .read off v => if off = outDataOff && v.getLsbD 8 then some (v.extractLsb' 0 8) else none
  | .write _ _ => none
  | .reset => none

/-- The bytes the Host popped, in order: OUT of R122, whichever operation popped them (log 15). -/
def State.popped (s : State) : List Byte := s.host.trace.filterMap poppedBy

/-- The observation of a run (R122). -/
structure Observation where
  out : List Byte
  err : Word
  errInfo : Word
  pad : Word
  inCount : Word
  outCount : Word
  phase : Phase
deriving DecidableEq, Repr

/-- The observation of a state (R122): the registers ERR, ERR_INFO, PAD, IN_COUNT and OUT_COUNT, read in this order,
each as spec/10_state.md R40 gives it. -/
def observe (s : State) : Observation :=
  let s1 := s.afterRead 0x000C
  let s2 := s1.afterRead 0x0010
  let s3 := s2.afterRead 0x001C
  let s4 := s3.afterRead 0x0020
  { out := s.popped
    err := s.readWord 0x000C
    errInfo := s1.readWord 0x0010
    pad := s2.readWord 0x001C
    inCount := s3.readWord 0x0020
    outCount := s4.readWord 0x0024
    phase := s.phase }

end Sys2Proof.Machine
end

