-- ==== Sys2Proof/WellFormed.lean ====
section
/-! DEFINITION. Which commands and which host programs the spec admits. -/

namespace Sys2Proof

/-- Every term of `Instr` is a command of spec/30_encoding.md R62: ENC's operand type holds exactly the symbols
0..255 (R61), and no other command has an operand. -/
def Instr.wf : Instr → Bool
  | .nop | .clear | .build | .gen | .flush => true
  | .enc s => decide (s.toNat < 256)

/-- A host operation is admitted unless it makes an access of another width or at an offset that is no multiple of 4
(spec/20_memory.md R45, D21). -/
def Machine.HostOp.wf : Machine.HostOp → Bool
  | .wr off size _ => Machine.admitted off size
  | .rd off size _ => Machine.admitted off size
  | .wait | .popall | .popToOut | .reset => true

/-- A host program is admitted when each of its operations is. -/
def Machine.progWf (p : List Machine.HostOp) : Bool := p.all Machine.HostOp.wf

end Sys2Proof
end

