-- ==== Sys2Proof/Safety.lean ====
section
/-! DEFINITION. What claims are stated in, beside Machine/Observation.lean: the error entry, the events of a step,
the shape of a Huffman tree (spec/41_tree_builder.md R75 to R81), the code of a path (spec/42_code_generator.md R82),
the bit stream of a run (spec/43_bit_encoder.md R93), and the invariant of the machine. -/

namespace Sys2Proof.Machine

/-- The state after the first error of a run, with its cause and info (spec/60_exceptions.md R105), written out. -/
def State.failed (s : State) (c : Cause) (info : Word) : State :=
  { s with errCause := c, errInfo := info, phase := .error, cmdPending := none, bitbuf := [], fifo := [] }

/-- The state with ERR_MULTI set, as a later error leaves it (R105, R106). -/
def State.multi (s : State) : State := { s with errMulti := true }

/-- The same state of the HTB with another schedule and another Host. -/
def State.withHost (s : State) (sched : List Agent) (host : HostState) : State := { s with sched := sched, host := host }

/-- The next step is EXEC of CLEAR, or the reset input: the two events that start a new run (R72, R113). -/
def State.clearsNext (s : State) : Prop :=
  (s.nextAgent = some .engine ∧ s.cmdPending = some 0x01000000) ∨
  (s.nextAgent = some .host ∧ s.host.prog.head? = some .reset)

/-- The next step is EXEC of word w (spec/40_control.md R69). -/
def State.execsNext (s : State) (w : Word) : Prop := s.nextAgent = some .engine ∧ s.cmdPending = some w

/-- The next step is a Host read of OUT_DATA (spec/20_memory.md R51). -/
def State.popsNext (s : State) : Prop :=
  s.nextAgent = some .host ∧
    ((∃ name, s.host.prog.head? = some (.rd 0x0028 4 name)) ∨ s.host.prog.head? = some .popToOut)

/-- The offsets of SYMCOUNT, ROOT, PAD, IN_COUNT, OUT_COUNT, FREQ, CODE_LEN, CODE_BITS and NODE (spec/10_state.md R17,
R40). -/
def isTableOffset (n : Nat) : Prop :=
  (0x0014 ≤ n ∧ n ≤ 0x0024) ∨ (0x0400 ≤ n ∧ n ≤ 0x0BFC) ∨ (0x2000 ≤ n ∧ n ≤ 0x5FEC)

/-- LEFT of slot n. -/
def leftOf (a : Arena) (n : Nat) : Nat := (nodeAt a n).left.toNat

/-- RIGHT of slot n. -/
def rightOf (a : Arena) (n : Nat) : Nat := (nodeAt a n).right.toNat

/-- F of slot n as a number. -/
def freqOf (a : Arena) (n : Nat) : Nat := (nodeAt a n).f.toNat

/-- `key(x)` comes before `key(y)` (R76). -/
def keyBefore (a : Arena) (x y : Nat) : Prop := freqOf a x < freqOf a y ∨ (freqOf a x = freqOf a y ∧ x < y)

/-- Node n waits in Q when slot c is about to be made (R77): it is there already, and no slot made before c has it as
a child. -/
def waits (a : Arena) (c n : Nat) : Prop :=
  (nodeAt a n).valid = true ∧ n < c ∧ ∀ j, 256 ≤ j → j < c → leftOf a j ≠ n ∧ rightOf a j ≠ n

/-- x is the one with the least key among those with P (R76). -/
def isLeast (a : Arena) (P : Nat → Prop) (x : Nat) : Prop := P x ∧ ∀ y, P y → y ≠ x → keyBefore a x y

/-- Slot c is what one merge makes (R77): VALID, not LEAF, the exact sum, LEFT the least of Q and RIGHT the least of
the rest. -/
structure MergeOk (a : Arena) (c : Nat) : Prop where
  valid : (nodeAt a c).valid = true
  inner : (nodeAt a c).leaf = false
  sum : freqOf a c = freqOf a (leftOf a c) + freqOf a (rightOf a c)
  left : isLeast a (waits a c) (leftOf a c)
  right : isLeast a (fun n => waits a c n ∧ n ≠ leftOf a c) (rightOf a c)

/-- The number of symbols with a non-zero frequency: k. -/
def symbolCount (t : FreqTable) : Nat := t.toList.countP fun v => v ≠ 0

/-- Σ_s FREQ[s] (R79). -/
def totalWeight (t : FreqTable) : Nat := (t.toList.map BitVec.toNat).sum

/-- The arena is the Huffman tree of a frequency table with k symbols and the given root (R33, R75 to R78, R81). -/
structure TreeShape (t : FreqTable) (a : Arena) (k root : Nat) : Prop where
  count : k = symbolCount t
  pos : 1 ≤ k
  leaves : ∀ x : Byte, nodeAt a x.toNat = leafNode (freqAt t x)
  merges : ∀ m, m + 1 < k → MergeOk a (256 + m)
  unused : ∀ m, k ≤ m + 1 → nodeAt a (256 + m) = emptyNode
  lastLeft : ∀ n, waits a (255 + k) n ↔ n = root

/-- The node that a path leads to from node n, "0" to LEFT and "1" to RIGHT (R82); `none` if it leaves the tree. -/
def walk (a : Arena) : Nat → Bits → Option Nat
  | n, [] => if (nodeAt a n).valid then some n else none
  | n, b :: p =>
    if (nodeAt a n).valid && !(nodeAt a n).leaf then walk a (if b then rightOf a n else leftOf a n) p else none

/-- The sum of the FREQ values of the leaves below node n (R79), looking at most `depth` links down. -/
def weightBelow (t : FreqTable) (a : Arena) : Nat → Nat → Nat
  | 0, _ => 0
  | depth + 1, n =>
    if (nodeAt a n).leaf then (freqAt t (BitVec.ofNat 8 n)).toNat
    else weightBelow t a depth (leftOf a n) + weightBelow t a depth (rightOf a n)

/-- The code table is the one of the tree (R82, R83, R86): a symbol with frequency 0 has none; a lone symbol has "0";
else a symbol's code is the one path from the root to its leaf. -/
def codesMatch (s : State) : Prop :=
  ∀ x : Byte,
    (freqAt s.freq x = 0 → codeAt s.code x = []) ∧
    (freqAt s.freq x ≠ 0 → s.symcount = 1 → codeAt s.code x = [false]) ∧
    (freqAt s.freq x ≠ 0 → s.symcount ≠ 1 → ∀ p, codeAt s.code x = p ↔ walk s.node s.rootIdx.toNat p = some x.toNat)

/-- The eight bits of a byte, bit 7 first (R47). -/
def byteBits (b : Byte) : Bits := (List.range 8).map fun i => b.getMsbD i

/-- The bits that are packed or wait to be packed, oldest first: those of FIFO, then BITBUF (R93). -/
def State.stream (s : State) : Bits := s.fifo.flatMap byteBits ++ s.bitbuf

/-- The phases in which the tree stands (R14). -/
def hasTree : Phase → Bool
  | .tree | .coded | .encode | .done => true
  | .load | .error => false

/-- The phases in which the code table is valid (R14). -/
def hasCodes : Phase → Bool
  | .coded | .encode | .done => true
  | .load | .tree | .error => false

/-- The phases in which nothing is encoded yet (R14). -/
def beforeEncode : Phase → Bool
  | .load | .tree | .coded => true
  | .encode | .done | .error => false

/-- The invariant of the machine: what every reachable state satisfies. -/
structure Inv (s : State) : Prop where
  /-- R90: a command other than CLEAR is only ever pending over at most 7 bits. -/
  pendingDrained : ∀ w, s.cmdPending = some w → w ≠ clearWord → s.bitbuf.length ≤ 7
  /-- R37, R90. -/
  bitbufFits : s.bitbuf.length ≤ 262
  /-- R38. -/
  fifoFits : s.fifo.length ≤ s.params.outFifoDepth
  /-- R26. -/
  padFits : s.pad ≤ 7
  /-- R24. -/
  symcountFits : s.symcount ≤ 256
  /-- R35, R84. -/
  codesFit : ∀ x : Byte, (codeAt s.code x).length ≤ 255
  /-- R22, R105: ERROR is the phase of a run with an error. -/
  errorReported : s.phase = .error ↔ s.errCause ≠ .none
  /-- R22, R23: without an error nothing is reported. -/
  noErrorNoInfo : s.errCause = .none → s.errInfo = 0 ∧ s.errMulti = false
  /-- R89, R105: in ERROR both buffers are empty. -/
  errorEmpty : s.phase = .error → s.bitbuf = [] ∧ s.fifo = []
  /-- R24, R25, R72: in LOAD there is no tree and no code. -/
  loadBlank : s.phase = .load → s.symcount = 0 ∧ s.rootValid = false ∧ s.rootIdx = 0 ∧
    s.node = Vector.replicate 511 emptyNode ∧ s.code = Vector.replicate 256 []
  /-- R14, R81: from BUILD on the arena is the Huffman tree of FREQ. -/
  treeStands : hasTree s.phase = true → s.rootValid = true ∧ TreeShape s.freq s.node s.symcount s.rootIdx.toNat
  /-- R14, R82, R83: from GEN on the code table is that of the tree. -/
  codesStand : hasCodes s.phase = true → codesMatch s
  /-- R14, R27, R28: before the first ENC nothing is buffered or counted. -/
  nothingEncoded : beforeEncode s.phase = true → s.bitbuf = [] ∧ s.fifo = [] ∧ s.inCount = 0 ∧ s.outCount = 0
  /-- R26: PAD is 0 until FLUSH. -/
  padZero : s.phase ≠ .done → s.phase ≠ .error → s.pad = 0

end Sys2Proof.Machine
end

