-- ==== Sys2Proof/Certificates/Slice0/Obligations.lean ====
section
/-! DEFINITION. The statements for the provers. `{ s with f := t.f }` on the right of an equation is a frame: every field
it does not name is that of s. -/

open Sys2Proof Sys2Proof.Machine

/-! ### Encoding -/

/-- Words written out from R62 and R63, with vectors E1 to E8: E2 to E8 are the seven illegal words. -/
def Obligations.SpecWordsDecode : Prop :=
  decode 0x00000000 = .ok .nop ∧ decode 0x01000000 = .ok .clear ∧ decode 0x02000000 = .ok .build ∧
  decode 0x03000000 = .ok .gen ∧ decode 0x04000061 = .ok (.enc 0x61) ∧ decode 0x040000FF = .ok (.enc 0xFF) ∧
  decode 0x05000000 = .ok .flush ∧
  decode 0x06000000 = .error .opcode ∧ decode 0xFF000000 = .error .opcode ∧ decode 0x00000001 = .error .arg ∧
  decode 0x00010000 = .error .rsvd ∧ decode 0x02000100 = .error .rsvd ∧ decode 0x04000100 = .error .rsvd ∧
  decode 0x01000001 = .error .arg

/-- R60, R62: a word decodes to a command exactly when it is the command's word; so decode of encode is the command,
for every symbol, and every legal word is in one row. -/
def Obligations.DecodeAndEncodeAgree : Prop :=
  ∀ (i : Instr) (w : Word), decode w = .ok i ↔ encode i = w

/-- R63: the words that match no row of R62 are those of its three cases, and EXEC of one raises ILLEGAL_CMD, or sets
MULTI alone in ERROR. -/
def Obligations.IllegalWordsRaiseIllegalCmd : Prop :=
  ∀ w : Word,
    (isIllegal w = true ↔ ∀ i, w &&& maskWord i ≠ matchWord i) ∧
    (isIllegal w = true ↔
      (0x06 ≤ (w.extractLsb' 24 8).toNat ∨ w.extractLsb' 8 16 ≠ 0 ∨
        (w.extractLsb' 0 8 ≠ 0 ∧ (w.extractLsb' 24 8).toNat ≠ 4))) ∧
    ∀ s : State, isIllegal w = true → s.cmdPending = some w →
      engineStep s = .next (if s.phase = .error then { s with cmdPending := none, errMulti := true }
        else s.failed .illegalCmd w)

/-! ### The step -/

/-- R69: where the Engine moves and the pending word decodes to i, the step is exec of i on the state with the word
taken out and one entry of the schedule used up; and the Engine moves wherever a word is pending and the schedule does
not name the Host, or the Host has nothing to do. The schedule is the model's form of R48 (log 2). -/
def Obligations.StepRunsPendingCommand : Prop :=
  (∀ (s : State) (w : Word) (i : Instr), s.cmdPending = some w → decode w = .ok i → s.nextAgent = some .engine →
    step s = exec i { s with cmdPending := none, sched := s.sched.tail }) ∧
  (∀ (s : State) (w : Word), s.cmdPending = some w → (s.sched.head? ≠ some .host ∨ s.host.prog = []) →
    s.nextAgent = some .engine)

/-- R69, R104: the order of EXEC's checks: CLEAR, ERROR, illegal, phase, data. -/
def Obligations.ExecChecksInOrder : Prop :=
  ∀ (s : State) (w : Word), s.cmdPending = some w →
    (w = 0x01000000 → engineStep s = .next { s with cmdPending := none }.doClear) ∧
    (w = 0x00000000 → engineStep s = .next { s with cmdPending := none }) ∧
    (w ≠ 0x01000000 → w ≠ 0x00000000 → s.phase = .error →
      engineStep s = .next { s with cmdPending := none, errMulti := true }) ∧
    (w ≠ 0x01000000 → s.phase ≠ .error → isIllegal w = true → engineStep s = .next (s.failed .illegalCmd w)) ∧
    (∀ i c, w ≠ 0x01000000 → s.phase ≠ .error → decode w = .ok i → phaseError i s.phase = some c →
      engineStep s = .next (s.failed c w)) ∧
    (w = 0x02000000 → s.phase = .load → (∀ x, freqAt s.freq x = 0) → engineStep s = .next (s.failed .emptyTable 0)) ∧
    (∀ x : Byte, w = 0x04000000 + x.setWidth 32 → s.phase = .coded ∨ s.phase = .encode → codeAt s.code x = [] →
      engineStep s = .next (s.failed .missingCode (x.setWidth 32)))

/-- R48, R55: both agents can move where both have a step, as the schedule says; an agent alone with a step moves
whatever the schedule says. The schedule is the model's own (log 2). Where neither has a step, the state stays: the
model's choice, too (log 9). -/
def Obligations.InterleavingIsFree : Prop :=
  ∀ (s : State) (rest : List Agent),
    (s.hostReady = true → s.engineReady = true →
      step { s with sched := .host :: rest } = hostStep { s with sched := rest } ∧
      step { s with sched := .engine :: rest } = engineStep { s with sched := rest }) ∧
    (s.hostReady = false → s.engineReady = true → step s = engineStep { s with sched := s.sched.tail }) ∧
    (s.hostReady = true → s.engineReady = false → step s = hostStep { s with sched := s.sched.tail }) ∧
    (s.hostReady = false → s.engineReady = false → step s = .next s)

/-- R70: the table of phases, cell by cell; CLEAR and ERROR never reach the check. -/
def Obligations.PhaseTable : Prop :=
  ∀ s : State,
    exec .clear s = .next s.doClear ∧
    (s.phase = .error → ∀ i, i ≠ .nop → i ≠ .clear → exec i s = .next s.multi) ∧
    exec .nop s = .next s ∧
    (s.phase = .load → exec .build s = runBuild s) ∧
    (s.phase = .tree ∨ s.phase = .coded ∨ s.phase = .encode ∨ s.phase = .done →
      exec .build s = .next (s.failed .badSequence 0x02000000)) ∧
    (s.phase = .load → exec .gen s = .next (s.failed .noTree 0x03000000)) ∧
    (s.phase = .tree → exec .gen s = runGen s) ∧
    (s.phase = .coded ∨ s.phase = .encode ∨ s.phase = .done →
      exec .gen s = .next (s.failed .badSequence 0x03000000)) ∧
    (∀ x : Byte, s.phase = .load ∨ s.phase = .tree ∨ s.phase = .done →
      exec (.enc x) s = .next (s.failed .badSequence (0x04000000 + x.setWidth 32))) ∧
    (∀ x : Byte, s.phase = .coded ∨ s.phase = .encode → exec (.enc x) s = runEnc x s) ∧
    (s.phase = .load ∨ s.phase = .tree ∨ s.phase = .done →
      exec .flush s = .next (s.failed .badSequence 0x05000000)) ∧
    (s.phase = .coded ∨ s.phase = .encode → exec .flush s = runFlush s)

/-! ### NOP and CLEAR -/

/-- R71: NOP answers the same state in every phase; taken by the Engine, it only empties CMD_PENDING. -/
def Obligations.NopChangesNothing : Prop :=
  ∀ s : State, exec .nop s = .next s ∧
    (s.execsNext 0x00000000 → step s = .next { s with cmdPending := none, sched := s.sched.tail })

/-- R72: CLEAR in every phase: the state after it. CMD_PENDING, the configuration, the draws, the schedule and the
Host's record are as before. -/
def Obligations.ClearStartsNewRun : Prop :=
  ∀ s : State, ∃ t, exec .clear s = .next t ∧
    t.phase = .load ∧ (∀ x, freqAt t.freq x = 0) ∧ (∀ x, codeAt t.code x = []) ∧ (∀ n, nodeAt t.node n = emptyNode) ∧
    t.rootValid = false ∧ t.rootIdx = 0 ∧ t.symcount = 0 ∧ t.bitbuf = [] ∧ t.fifo = [] ∧ t.pad = 0 ∧
    t.inCount = 0 ∧ t.outCount = 0 ∧ t.errCause = .none ∧ t.errMulti = false ∧ t.errInfo = 0 ∧
    t.cmdPending = s.cmdPending ∧ t.params = s.params ∧ t.draws = s.draws ∧ t.sched = s.sched ∧ t.host = s.host

/-! ### BUILD -/

/-- R96: BUILD with every FREQ 0 raises EMPTY_TABLE and writes no node, root or count. -/
def Obligations.BuildOfEmptyTable : Prop :=
  ∀ s : State, s.phase = .load → (∀ x, freqAt s.freq x = 0) →
    exec .build s = .next (s.failed .emptyTable 0x00000000)

/-- R75, R80: BUILD in LOAD with some frequency not 0 answers a next state; SYMCOUNT, the leaves and the frame. -/
def Obligations.BuildCompletes : Prop :=
  ∀ s : State, s.phase = .load → (∃ x, freqAt s.freq x ≠ 0) →
    ∃ t, exec .build s = .next t ∧
      t = { s with
        node := t.node, symcount := t.symcount, rootValid := t.rootValid, rootIdx := t.rootIdx, phase := t.phase } ∧
      t.phase = .tree ∧ t.rootValid = true ∧ t.symcount = symbolCount s.freq ∧
      ∀ x : Byte, nodeAt t.node x.toNat =
        if freqAt s.freq x = 0 then emptyNode
        else { valid := true, leaf := true, f := (freqAt s.freq x).setWidth 40, left := 0, right := 0 }

/-- R76, R77: after BUILD, slot 256 + m for m = 0..k - 2 is the merge of the two nodes with the least keys then in Q,
the first LEFT, with the exact sum; every other internal slot is all zeros. -/
def Obligations.BuildMergesLeastFirst : Prop :=
  ∀ s : State, s.phase = .load → (∃ x, freqAt s.freq x ≠ 0) →
    ∃ t, exec .build s = .next t ∧
      (∀ m, m + 1 < t.symcount → MergeOk t.node (256 + m)) ∧
      ∀ m, t.symcount ≤ m + 1 → nodeAt t.node (256 + m) = emptyNode

/-- R78, R81: the root is the one node left in Q; the lone symbol for k = 1, slot 256 + k - 2 for k ≥ 2. -/
def Obligations.BuildSetsRoot : Prop :=
  ∀ s : State, s.phase = .load → (∃ x, freqAt s.freq x ≠ 0) →
    ∃ t, exec .build s = .next t ∧ t.rootValid = true ∧
      (∀ n, waits t.node (255 + t.symcount) n ↔ n = t.rootIdx.toNat) ∧
      (t.symcount = 1 → ∀ x : Byte, freqAt s.freq x ≠ 0 → t.rootIdx.toNat = x.toNat) ∧
      (2 ≤ t.symcount → t.rootIdx.toNat = 256 + t.symcount - 2)

/-- R81, items 1 to 6. -/
def Obligations.BuildMakesFullTree : Prop :=
  ∀ s : State, s.phase = .load → (∃ x, freqAt s.freq x ≠ 0) →
    ∃ t, exec .build s = .next t ∧ t.symcount = symbolCount s.freq ∧ t.symcount ≤ 256 ∧
      (∀ n, 256 ≤ n → ((nodeAt t.node n).valid = true ↔ n < 255 + t.symcount)) ∧
      (∀ n, (nodeAt t.node n).valid = true → n ≠ t.rootIdx.toNat →
        ∃ c, (256 ≤ c ∧ (nodeAt t.node c).valid = true ∧ (leftOf t.node c = n ∨ rightOf t.node c = n)) ∧
          ∀ c', 256 ≤ c' → (nodeAt t.node c').valid = true → (leftOf t.node c' = n ∨ rightOf t.node c' = n) → c' = c) ∧
      (∀ c, 256 ≤ c → (nodeAt t.node c).valid = true →
        leftOf t.node c ≠ t.rootIdx.toNat ∧ rightOf t.node c ≠ t.rootIdx.toNat) ∧
      (∀ n, (nodeAt t.node n).valid = true →
        (n < 256 → (nodeAt t.node n).leaf = true ∧ (nodeAt t.node n).left = 0 ∧ (nodeAt t.node n).right = 0) ∧
        (256 ≤ n → (nodeAt t.node n).leaf = false ∧ leftOf t.node n ≠ rightOf t.node n ∧
          (nodeAt t.node (leftOf t.node n)).valid = true ∧ (nodeAt t.node (rightOf t.node n)).valid = true ∧
          leftOf t.node n < n ∧ rightOf t.node n < n)) ∧
      (∀ n, (nodeAt t.node n).valid = true → freqOf t.node n = weightBelow s.freq t.node 511 n)

/-- R79: the root's F is the exact sum of all frequencies, and no node's F is more; so no sum wraps. -/
def Obligations.FrequenciesAreExact : Prop :=
  ∀ s : State, s.phase = .load → (∃ x, freqAt s.freq x ≠ 0) →
    ∃ t, exec .build s = .next t ∧ freqOf t.node t.rootIdx.toNat = totalWeight s.freq ∧
      totalWeight s.freq ≤ 2 ^ 40 - 2 ^ 8 ∧ ∀ n, freqOf t.node n ≤ totalWeight s.freq

/-! ### GEN -/

/-- R82, R85: in a state of the invariant with PHASE TREE, GEN answers a next state whose code table is that of the
tree; nothing but CODE and PHASE changes. -/
def Obligations.GenCompletes : Prop :=
  ∀ s : State, Inv s → s.phase = .tree →
    ∃ t, exec .gen s = .next t ∧ t = { s with code := t.code, phase := .coded } ∧ codesMatch t

/-- R83: a lone symbol's code is "0". -/
def Obligations.GenOfLoneSymbol : Prop :=
  ∀ s : State, s.phase = .tree → s.symcount = 1 → s.rootIdx.toNat < 256 →
    ∃ t, exec .gen s = .next t ∧
      ∀ x : Byte, codeAt t.code x = if x.toNat = s.rootIdx.toNat then [false] else []

/-- R84, R86 item 2: after GEN every code is at most 255 bits long, exactly the symbols with FREQ ≠ 0 have a code that
is not empty, and there are k of them. -/
def Obligations.CodeLengths : Prop :=
  ∀ s : State, Inv s → s.phase = .tree →
    ∃ t, exec .gen s = .next t ∧
      (∀ x, (codeAt t.code x).length ≤ 255 ∧ (codeAt t.code x ≠ [] ↔ freqAt s.freq x ≠ 0)) ∧
      (t.code.toList.countP fun c => c ≠ []) = s.symcount

/-- R86 item 1: no code begins another. -/
def Obligations.CodesArePrefixFree : Prop :=
  ∀ s : State, Inv s → hasCodes s.phase = true → ∀ x y : Byte, codeAt s.code x ≠ [] → codeAt s.code y ≠ [] →
    ∀ r, codeAt s.code y = codeAt s.code x ++ r → x = y

/-- R86 item 3: the Kraft sum, times 2^255, is 2^255 for k ≥ 2 and half of it for k = 1. -/
def Obligations.KraftSum : Prop :=
  ∀ s : State, Inv s → hasCodes s.phase = true →
    (s.code.toList.map fun c => if c = [] then 0 else 2 ^ (255 - c.length)).sum =
      if s.symcount = 1 then 2 ^ 254 else 2 ^ 255

/-- R94: the concatenation of codes reads back as one sequence of coded symbols only. -/
def Obligations.CodesReadBackUniquely : Prop :=
  ∀ s : State, Inv s → hasCodes s.phase = true → ∀ xs ys : List Byte,
    (∀ x ∈ xs, codeAt s.code x ≠ []) → (∀ y ∈ ys, codeAt s.code y ≠ []) →
    xs.flatMap (codeAt s.code) = ys.flatMap (codeAt s.code) → xs = ys

/-! ### ENC, FLUSH, DRAIN -/

/-- R87: ENC of a coded symbol in CODED or ENCODE. -/
def Obligations.EncAppendsCode : Prop :=
  ∀ (s : State) (x : Byte), s.phase = .coded ∨ s.phase = .encode → codeAt s.code x ≠ [] →
    ∃ t, exec (.enc x) s = .next t ∧
      t = { s with bitbuf := t.bitbuf, inCount := t.inCount, phase := t.phase } ∧
      t.bitbuf = s.bitbuf ++ codeAt s.code x ∧ t.inCount = s.inCount + 1 ∧ t.phase = .encode

/-- R98: ENC of a symbol whose FREQ was 0 at BUILD raises MISSING_CODE with the symbol. -/
def Obligations.EncOfUncodedSymbol : Prop :=
  ∀ (s : State) (x : Byte), Inv s → s.phase = .coded ∨ s.phase = .encode →
    (codeAt s.code x = [] ↔ freqAt s.freq x = 0) ∧
    (codeAt s.code x = [] → ∃ t, exec (.enc x) s = .next t ∧ t = s.failed .missingCode t.errInfo ∧
      t.errInfo = x.setWidth 32 ∧ t.errInfo.extractLsb' 0 8 = x)

/-- R88: FLUSH in CODED or ENCODE with r = len(BITBUF) in 0..7. -/
def Obligations.FlushPads : Prop :=
  ∀ s : State, s.phase = .coded ∨ s.phase = .encode → s.bitbuf.length ≤ 7 →
    ∃ t, exec .flush s = .next t ∧
      t = { s with bitbuf := t.bitbuf, pad := t.pad, phase := .done } ∧
      (s.bitbuf = [] → t.bitbuf = [] ∧ t.pad = 0) ∧
      (s.bitbuf ≠ [] → t.pad = 8 - s.bitbuf.length ∧ t.bitbuf = s.bitbuf ++ List.replicate t.pad false ∧
        t.bitbuf.length = 8)

/-- R92: FLUSH straight after GEN is legal and gives DONE, PAD = 0, IN_COUNT = 0 and no output byte. -/
def Obligations.FlushWithoutEnc : Prop :=
  ∀ s : State, Inv s → s.phase = .coded →
    ∃ t, exec .flush s = .next t ∧ t = { s with phase := .done } ∧ t.pad = 0 ∧ t.inCount = 0 ∧ t.bitbuf = [] ∧
      t.fifo = [] ∧ t.outCount = 0 ∧ t.errCause = .none

/-- R89: when DRAIN is enabled, what it does, when it is held, and that it is never enabled in ERROR. -/
def Obligations.DrainPacksOneByte : Prop :=
  ∀ s : State,
    (s.drainReady = true ↔
      s.cmdPending = none ∧ 8 ≤ s.bitbuf.length ∧ s.fifo.length < s.params.outFifoDepth) ∧
    (s.cmdPending = none → 8 ≤ s.bitbuf.length → s.fifo.length < s.params.outFifoDepth →
      ∃ t b, engineStep s = .next t ∧ t = { s with bitbuf := t.bitbuf, fifo := t.fifo, outCount := t.outCount } ∧
        t.bitbuf = s.bitbuf.drop 8 ∧ t.fifo = s.fifo ++ [b] ∧ t.outCount = s.outCount + 1 ∧
        ∀ i, i < 8 → s.bitbuf[i]? = some (b.getMsbD i)) ∧
    (s.cmdPending = none → 8 ≤ s.bitbuf.length → s.fifo.length = s.params.outFifoDepth →
      s.engineReady = false ∧ s.busy = true ∧ s.drainHeld = true) ∧
    (Inv s → s.phase = .error → s.bitbuf = [] ∧ s.drainReady = false)

/-- R87, R88, R89, R51, R93, R122: the bits that are packed or wait to be packed, and the bytes the Host popped. Without
an error or a new run, ENC appends the symbol's code, FLUSH appends zeros up to a whole byte and records how many in
PAD, a read of OUT_DATA takes one byte off the front, which is then the last byte popped, and no other step changes them
or pops. The bytes popped are OUT of R122 as log 15 reads it, computed from the record of accesses, which is the model's
own (log 1). -/
def Obligations.StreamOfCodes : Prop :=
  ∀ s t : State, Inv s → step s = .next t → ¬s.clearsNext → t.phase ≠ .error →
    (∀ x : Byte, s.execsNext (0x04000000 + x.setWidth 32) → t.stream = s.stream ++ codeAt s.code x) ∧
    (s.execsNext 0x05000000 → t.pad = (8 - s.stream.length % 8) % 8 ∧
      t.stream = s.stream ++ List.replicate t.pad false ∧ t.stream.length % 8 = 0) ∧
    (s.popsNext → ∀ b rest, s.fifo = b :: rest → s.stream = byteBits b ++ t.stream ∧
      t.host.trace = s.host.trace ++ [.read 0x0028 (0x00000100 + b.setWidth 32)] ∧ t.popped = s.popped ++ [b]) ∧
    ((s.popsNext → s.fifo = []) → t.popped = s.popped) ∧
    ((∀ x : Byte, ¬s.execsNext (0x04000000 + x.setWidth 32)) → ¬s.execsNext 0x05000000 → (s.popsNext → s.fifo = []) →
      t.stream = s.stream)

/-! ### Errors -/

/-- R105: a command that raises an error outside ERROR changes nothing else: the state after it is the error entry. -/
def Obligations.ErrorsArePrecise : Prop :=
  ∀ (i : Instr) (s t : State), s.phase ≠ .error → exec i s = .next t → t.phase = .error →
    t = s.failed t.errCause t.errInfo ∧ t.errCause ≠ .none

/-- R106: in ERROR. -/
def Obligations.ErrorPhaseSetsMultiOnly : Prop :=
  ∀ s : State, s.phase = .error →
    exec .nop s = .next s ∧
    (∃ t, exec .clear s = .next t ∧ t.phase = .load ∧ t.errCause = .none ∧ t.errMulti = false) ∧
    (∀ i, i ≠ .nop → i ≠ .clear → exec i s = .next s.multi) ∧
    (∀ w, isIllegal w = true → execWord w s = .next s.multi) ∧
    (∀ x off v, s.freqWrite x off v = s.multi) ∧
    (∀ v, v ≠ 0x01000000 → s.busy = true → s.memWrite 0x0004 v = s.multi) ∧
    (Inv s → s.busy = true → ∃ w, s.cmdPending = some w)

/-- R107: CLEAR and reset leave ERROR, and nothing else does; both zero the error report and every table and enter
LOAD. -/
def Obligations.OnlyClearOrResetLeavesError : Prop :=
  ∀ s t : State, s.phase = .error → step s = .next t →
    (t.phase ≠ .error ↔ s.clearsNext) ∧
    (s.clearsNext → t.phase = .load ∧ t.errCause = .none ∧ t.errMulti = false ∧ t.errInfo = 0 ∧
      (∀ x, freqAt t.freq x = 0) ∧ (∀ x, codeAt t.code x = []) ∧ ∀ n, nodeAt t.node n = emptyNode)

/-- R22, R105: the first error's cause and info stay, and MULTI stays set, until a new run. -/
def Obligations.FirstErrorIsKept : Prop :=
  ∀ s t : State, Inv s → s.errCause ≠ .none → step s = .next t → ¬s.clearsNext →
    t.errCause = s.errCause ∧ t.errInfo = s.errInfo ∧ (s.errMulti = true → t.errMulti = true)

/-- R14, R72, R105: the phases go forward; a step back to LOAD is a CLEAR or a reset. -/
def Obligations.PhasesGoForward : Prop :=
  ∀ s t : State, step s = .next t → ¬s.clearsNext →
    t.phase = s.phase ∨ t.phase = .error ∨ (s.phase = .load ∧ t.phase = .tree) ∨ (s.phase = .tree ∧ t.phase = .coded) ∨
    (s.phase = .coded ∧ t.phase = .encode) ∨ ((s.phase = .coded ∨ s.phase = .encode) ∧ t.phase = .done)

/-! ### The Host's accesses -/

/-- R68: a write to CMD. -/
def Obligations.CmdWriteIsAccepted : Prop :=
  ∀ (s : State) (v : Word),
    (v = 0x01000000 ∨ s.busy = false →
      s.memWrite 0x0004 v = { s with cmdPending := some v } ∧ (s.memWrite 0x0004 v).pending = true ∧
        (s.memWrite 0x0004 v).busy = true) ∧
    (v ≠ 0x01000000 → s.busy = true → s.phase ≠ .error → s.memWrite 0x0004 v = s.failed .busyWrite 0x00000004) ∧
    (v ≠ 0x01000000 → s.busy = true → s.phase = .error → s.memWrite 0x0004 v = s.multi)

/-- R50: a write to FREQ[x], at offset 0x0400 + 4·x. -/
def Obligations.FreqWriteRule : Prop :=
  ∀ (s : State) (x : Byte) (off : Offset) (v : Word), off.toNat = 0x0400 + 4 * x.toNat →
    (s.busy = true → s.phase ≠ .error → s.memWrite off v = s.failed .busyWrite (off.setWidth 32)) ∧
    (s.busy = false → s.phase ≠ .load → s.phase ≠ .error →
      s.memWrite off v = s.failed .freqLocked (off.setWidth 32)) ∧
    (s.phase = .error → s.memWrite off v = s.multi) ∧
    (s.busy = false → s.phase = .load →
      s.memWrite off v = { s with freq := (s.memWrite off v).freq } ∧
      ∀ y, freqAt (s.memWrite off v).freq y = if y = x then v else freqAt s.freq y)

/-- R51: a read of OUT_DATA, in every phase, BUSY or not. -/
def Obligations.OutDataReadPops : Prop :=
  ∀ s : State,
    (∀ b rest, s.fifo = b :: rest →
      s.readWord 0x0028 = b.setWidth 32 + 0x00000100 ∧ s.afterRead 0x0028 = { s with fifo := rest }) ∧
    (s.fifo = [] → s.readWord 0x0028 = 0x00000000 ∧ s.afterRead 0x0028 = s)

/-- R52: the accesses without side effect. -/
def Obligations.OnlyThreeSideEffects : Prop :=
  ∀ (s : State) (off : Offset), off.toNat % 4 = 0 →
    (∀ v, off ≠ 0x0004 → ¬(0x0400 ≤ off.toNat ∧ off.toNat ≤ 0x07FC) → s.memWrite off v = s) ∧
    (off ≠ 0x0028 → isDraw s (regAt off) = false →
      s.afterRead off = s ∧ (s.afterRead off).readWord off = s.readWord off) ∧
    (off = 0x0004 → s.readWord off = 0 ∧ s.afterRead off = s)

/-- R10, R40: when a read is a draw and when it is exact. A draw is the free value `Config.draw` of a counter, which
the read moves on: the model's form of "any value" (log 3). `regValue` is the value that the layout statements below
give, each within its bounds (log 13). -/
def Obligations.ReadsInFlightAreDraws : Prop :=
  ∀ (s : State) (off : Offset), off.toNat % 4 = 0 →
    (s.pending = true → isTableOffset off.toNat ∨ off = 0x0030 →
      s.readWord off = Config.draw s.draws ∧ s.afterRead off = { s with draws := s.draws + 1 }) ∧
    (s.phase = .error → isTableOffset off.toNat →
      s.readWord off = Config.draw s.draws ∧ s.afterRead off = { s with draws := s.draws + 1 }) ∧
    (s.pending = false → s.phase ≠ .error → s.readWord off = regValue s (regAt off)) ∧
    (¬isTableOffset off.toNat → off ≠ 0x0030 → s.readWord off = regValue s (regAt off)) ∧
    (off = 0x0030 → s.pending = false → s.bitbuf.length ≤ 262 → (s.readWord off).toNat = s.bitbuf.length) ∧
    (Inv s → s.phase = .error → s.pending = false → off = 0x0030 → s.readWord off = 0)

/-- R17: the register map. -/
def Obligations.RegisterMap : Prop :=
  (regAt 0x0000 = .id ∧ regAt 0x0004 = .cmd ∧ regAt 0x0008 = .status ∧ regAt 0x000C = .err ∧ regAt 0x0010 = .errInfo ∧
    regAt 0x0014 = .symcount ∧ regAt 0x0018 = .root ∧ regAt 0x001C = .pad ∧ regAt 0x0020 = .inCount ∧
    regAt 0x0024 = .outCount ∧ regAt 0x0028 = .outData ∧ regAt 0x002C = .param ∧ regAt 0x0030 = .bitbufLen) ∧
  (∀ (off : Offset) (x : Byte), off.toNat = 0x0400 + 4 * x.toNat → regAt off = .freq x) ∧
  (∀ (off : Offset) (x : Byte), off.toNat = 0x0800 + 4 * x.toNat → regAt off = .codeLen x) ∧
  (∀ (off : Offset) (x : Byte) (j : Fin 8), off.toNat = 0x2000 + 32 * x.toNat + 4 * j.val → regAt off = .codeBits x j) ∧
  (∀ (off : Offset) (n : Nat) (w : Fin 4), n < 511 → off.toNat = 0x4000 + 16 * n + 4 * w.val → regAt off = .node n w) ∧
  (∀ off : Offset, off.toNat % 4 = 0 →
    (0x0034 ≤ off.toNat ∧ off.toNat ≤ 0x03FC) ∨ (0x0C00 ≤ off.toNat ∧ off.toNat ≤ 0x1FFC) ∨ 0x5FF0 ≤ off.toNat →
    regAt off = .reserved)

/-- R21: STATUS, field by field, in every phase. -/
def Obligations.StatusLayout : Prop :=
  ∀ s : State, s.fifo.length ≤ s.params.outFifoDepth →
    ∃ w, s.readWord 0x0008 = w ∧ s.afterRead 0x0008 = s ∧
      w.getLsbD 0 = s.busy ∧ w.getLsbD 1 = s.pending ∧ w.getLsbD 2 = decide (8 ≤ s.bitbuf.length) ∧
      w.getLsbD 3 = false ∧
      (w.extractLsb' 4 3).toNat =
        (match s.phase with | .load => 0 | .tree => 1 | .coded => 2 | .encode => 3 | .done => 4 | .error => 7) ∧
      w.getLsbD 7 = false ∧ w.getLsbD 8 = decide (s.fifo ≠ []) ∧
      w.getLsbD 9 = decide (s.fifo.length = s.params.outFifoDepth) ∧ w.extractLsb' 10 6 = 0 ∧
      (w.extractLsb' 16 16).toNat = s.fifo.length

/-- R22, R23, R95: ERR field by field and ERR_INFO, in every phase. -/
def Obligations.ErrLayout : Prop :=
  ∀ s : State, ∃ w, s.readWord 0x000C = w ∧
    (w.extractLsb' 0 4).toNat =
      (match s.errCause with
        | .none => 0 | .emptyTable => 1 | .noTree => 2 | .missingCode => 3 | .badSequence => 4 | .illegalCmd => 5
        | .busyWrite => 6 | .freqLocked => 7) ∧
    w.extractLsb' 4 4 = 0 ∧ w.getLsbD 8 = s.errMulti ∧ w.extractLsb' 9 23 = 0 ∧
    s.readWord 0x0010 = s.errInfo ∧ (Inv s → s.errCause = .none → s.readWord 0x0010 = 0)

/-- R18 to R20, R31: ID, CMD, PARAM and the reserved offsets read their constants in every state, and a read of one
changes nothing. R24 to R28, R30, R32: FREQ and the other registers below 0x0400, read with PENDING = 0 outside ERROR;
those whose field log 13 bounds, in states of the invariant. -/
def Obligations.RegistersReadTheirValues : Prop :=
  ∀ s : State,
    s.readWord 0x0000 = 0x48544231 ∧ s.readWord 0x0004 = 0 ∧
    (s.readWord 0x002C).toNat = 0x00FF0000 + s.params.outFifoDepth ∧
    s.afterRead 0x0000 = s ∧ s.afterRead 0x0004 = s ∧ s.afterRead 0x002C = s ∧
    (∀ off : Offset, off.toNat % 4 = 0 →
      (0x0034 ≤ off.toNat ∧ off.toNat ≤ 0x03FC) ∨ (0x0C00 ≤ off.toNat ∧ off.toNat ≤ 0x1FFC) ∨ 0x5FF0 ≤ off.toNat →
      s.readWord off = 0 ∧ s.afterRead off = s) ∧
    (s.pending = false → s.phase ≠ .error →
      (∀ (x : Byte) (off : Offset), off.toNat = 0x0400 + 4 * x.toNat → s.readWord off = freqAt s.freq x) ∧
      (s.readWord 0x0018).extractLsb' 0 9 = s.rootIdx ∧ (s.readWord 0x0018).extractLsb' 9 22 = 0 ∧
      (s.readWord 0x0018).getLsbD 31 = s.rootValid ∧
      s.readWord 0x0020 = s.inCount ∧ s.readWord 0x0024 = s.outCount ∧
      (Inv s → (s.readWord 0x0014).toNat = s.symcount ∧ (s.readWord 0x001C).toNat = s.pad ∧
        (s.readWord 0x0030).toNat = s.bitbuf.length))

/-- R34: the four words of NODE[n], read with PENDING = 0 outside ERROR. -/
def Obligations.NodeLayout : Prop :=
  ∀ (s : State) (n : Nat) (off : Offset) (w : Fin 4), s.pending = false → s.phase ≠ .error → n < 511 →
    off.toNat = 0x4000 + 16 * n + 4 * w.val →
    (w = 0 → s.readWord off = (nodeAt s.node n).f.extractLsb' 0 32) ∧
    (w = 1 → (s.readWord off).extractLsb' 0 8 = (nodeAt s.node n).f.extractLsb' 32 8 ∧
      (s.readWord off).extractLsb' 8 22 = 0 ∧ (s.readWord off).getLsbD 30 = (nodeAt s.node n).leaf ∧
      (s.readWord off).getLsbD 31 = (nodeAt s.node n).valid) ∧
    (Inv s → (nodeAt s.node n).leaf = true → (nodeAt s.node n).left = 0 ∧ (nodeAt s.node n).right = 0) ∧
    (w = 2 → (s.readWord off).extractLsb' 0 9 = (nodeAt s.node n).left ∧ (s.readWord off).extractLsb' 9 7 = 0 ∧
      (s.readWord off).extractLsb' 16 9 = (nodeAt s.node n).right ∧ (s.readWord off).extractLsb' 25 7 = 0) ∧
    (w = 3 → s.readWord off = 0)

/-- R35, R36: CODE_LEN[x] reads the length; bit len - 1 - i of the number in CODE_BITS[x] is the code's bit i, and
every bit from len up is 0. -/
def Obligations.CodeLayout : Prop :=
  ∀ (s : State) (x : Byte), s.pending = false → s.phase ≠ .error → (codeAt s.code x).length ≤ 255 →
    (∀ off : Offset, off.toNat = 0x0800 + 4 * x.toNat → (s.readWord off).toNat = (codeAt s.code x).length) ∧
    ∀ (off : Offset) (j : Fin 8) (b : Nat), off.toNat = 0x2000 + 32 * x.toNat + 4 * j.val → b < 32 →
      ((32 * j.val + b < (codeAt s.code x).length →
        (codeAt s.code x)[(codeAt s.code x).length - 1 - (32 * j.val + b)]? = some ((s.readWord off).getLsbD b)) ∧
      ((codeAt s.code x).length ≤ 32 * j.val + b → (s.readWord off).getLsbD b = false))

/-- R44, R45, R110: an access of another width or at an offset that is no multiple of 4 is refused by name, and no other host
operation is, in any state: nothing is refused for a mode or a permission. -/
def Obligations.UnadmittedAccessIsRefused : Prop :=
  ∀ (s : State) (off : Offset) (size : Nat),
    (size ≠ 4 ∨ off.toNat % 4 ≠ 0 →
      (∀ v, hostOp (.wr off size v) s = .refused (.notAdmitted off size)) ∧
      (∀ name, hostOp (.rd off size name) s = .refused (.notAdmitted off size))) ∧
    ∀ op, op.wf = true → ∃ t, hostOp op s = .next t

/-- R48, R49, R51, R65: one Host step that is an aligned 32-bit write or read: its effect on the HTB, the host variable
it binds, and the record of the access. The Host's program and record in State are the model's own (log 1). -/
def Obligations.HostAccessSteps : Prop :=
  ∀ (s : State) (rest : List HostOp) (off : Offset), s.nextAgent = some .host → off.toNat % 4 = 0 →
    (∀ v, s.host.prog = .wr off 4 v :: rest →
      ∃ h : HostState, step s = .next ((s.memWrite off v).withHost s.sched.tail h) ∧
        h = { s.host with prog := rest, trace := s.host.trace ++ [Event.write off v] }) ∧
    (∀ name, s.host.prog = .rd off 4 name :: rest →
      ∃ h : HostState, step s = .next ((s.afterRead off).withHost s.sched.tail h) ∧
        h = { s.host with
          prog := rest
          vars := (name, s.readWord off) :: s.host.vars
          trace := s.host.trace ++ [Event.read off (s.readWord off)] })

/-- R66, log 1: one Host step of `wait`: it reads STATUS, then pops if OUT_VALID and goes on if BUSY. -/
def Obligations.WaitPollsStatus : Prop :=
  ∀ (s : State) (rest : List HostOp), s.nextAgent = some .host → s.host.prog = .wait :: rest →
    ∃ h : HostState, step s = .next (s.withHost s.sched.tail h) ∧ h.out = s.host.out ∧
      h.trace = s.host.trace ++ [Event.read 0x0008 (statusWord s)] ∧
      (s.fifo = [] → s.busy = false → h.prog = rest) ∧
      (s.fifo = [] → s.busy = true → h.prog = .wait :: rest) ∧
      (s.fifo ≠ [] → s.busy = false → h.prog = .popToOut :: rest) ∧
      (s.fifo ≠ [] → s.busy = true → h.prog = .popToOut :: .wait :: rest)

/-- R66, R122, log 1: one Host step of `popall`: it reads STATUS, then pops and goes on if OUT_VALID, else goes on if
BUSY; a run that ends so is complete. -/
def Obligations.PopallPollsStatus : Prop :=
  ∀ (s : State) (rest : List HostOp), s.nextAgent = some .host → s.host.prog = .popall :: rest →
    ∃ h : HostState, step s = .next (s.withHost s.sched.tail h) ∧ h.out = s.host.out ∧
      h.trace = s.host.trace ++ [Event.read 0x0008 (statusWord s)] ∧
      (s.fifo = [] → s.busy = false →
        h.prog = rest ∧ (rest = [] → (s.withHost s.sched.tail h).complete = true)) ∧
      (s.fifo = [] → s.busy = true → h.prog = .popall :: rest) ∧
      (s.fifo ≠ [] → h.prog = .popToOut :: .popall :: rest)

/-- R66, log 1: the pop inside `wait` and `popall`: it reads OUT_DATA and appends the byte to OUT. -/
def Obligations.PopAppendsToOut : Prop :=
  ∀ (s : State) (rest : List HostOp), s.nextAgent = some .host → s.host.prog = .popToOut :: rest →
    ∃ h : HostState, step s = .next ((s.afterRead 0x0028).withHost s.sched.tail h) ∧ h.prog = rest ∧
      h.out = s.host.out ++ [s.fifo.headD 0] ∧
      h.trace = s.host.trace ++ [Event.read 0x0028 (s.readWord 0x0028)]

/-- R56: STATUS with BUSY = 0 says that no command is pending, no full byte is left in BITBUF, and the Engine has no
step. -/
def Obligations.PollingSynchronises : Prop :=
  ∀ s : State, (s.readWord 0x0008).getLsbD 0 = false →
    s.cmdPending = none ∧ s.bitbuf.length < 8 ∧ s.engineReady = false

/-- R42, R43: the window on the bus. -/
def Obligations.WindowOnTheBus : Prop :=
  ∀ (p : Params) (addr : Nat),
    (∀ off : Offset, busOffset p addr = some off ↔ addr = p.base + off.toNat) ∧
    (busOffset p addr = none ↔ addr < p.base ∨ p.base + 0x8000 ≤ addr)

/-- R65, R66, R67: the expansion and the encoding of a host program: lines of P1 and their accesses. -/
def Obligations.HostProgramNotation : Prop :=
  expand [.setf 0x61 2, .cmd .clear, .pop "b1"] =
    [.wr 0x0584 4 0x00000002, .wr 0x0004 4 0x01000000, .rd 0x0028 4 "b1"] ∧
  expand [.issue .build, .encs [0x61, 0x62]] =
    [.wait, .wr 0x0004 4 0x02000000, .wait, .wr 0x0004 4 0x04000061, .wait, .wr 0x0004 4 0x04000062] ∧
  encodeProgram [.setf 0x61 2, .rd 0x0018 "root", .cmd (.enc 0x61)] =
    some [.write 0x0584 0x00000002, .read 0x0018, .write 0x0004 0x04000061] ∧
  encodeProgram [.wait] = none ∧ encodeProgram [.popall] = none

/-! ### Reset -/

/-- R13, R41: the state after reset, and what the registers read before and after the reset CLEAR. "Any value" is a
draw: a free value of a counter, the model's form of it (log 3). -/
def Obligations.ResetAndResetClear : Prop :=
  State.reset.phase = .load ∧ State.reset.cmdPending = some 0x01000000 ∧ (∀ x, freqAt State.reset.freq x = 0) ∧
  (∀ n, nodeAt State.reset.node n = emptyNode) ∧ State.reset.rootValid = false ∧ State.reset.rootIdx = 0 ∧
  State.reset.symcount = 0 ∧ (∀ x, codeAt State.reset.code x = []) ∧ State.reset.bitbuf = [] ∧
  State.reset.fifo = [] ∧ State.reset.pad = 0 ∧ State.reset.inCount = 0 ∧ State.reset.outCount = 0 ∧
  State.reset.errCause = .none ∧ State.reset.errMulti = false ∧ State.reset.errInfo = 0 ∧
  State.reset.readWord 0x0008 = 0x00000003 ∧ State.reset.readWord 0x0000 = 0x48544231 ∧
  (State.reset.readWord 0x002C).toNat = 0x00FF0000 + State.reset.params.outFifoDepth ∧
  State.reset.readWord 0x000C = 0 ∧ State.reset.readWord 0x0010 = 0 ∧ State.reset.readWord 0x0028 = 0 ∧
  (∀ off : Offset, off.toNat % 4 = 0 → isTableOffset off.toNat ∨ off = 0x0030 →
    State.reset.readWord off = Config.draw State.reset.draws) ∧
  ∃ t, step State.reset = .next t ∧
    ∀ off : Offset, off.toNat % 4 = 0 →
      (off = 0x0000 → t.readWord off = 0x48544231) ∧
      (off = 0x002C → (t.readWord off).toNat = 0x00FF0000 + t.params.outFifoDepth) ∧
      (off ≠ 0x0000 → off ≠ 0x002C → t.readWord off = 0)

/-- R113: the reset input as a Host event: the state is the reset state whatever went before; the configuration, the
draws and the Host's own record go on (log 6: the model's choice for its own fields). -/
def Obligations.ResetInput : Prop :=
  ∀ (s : State) (rest : List HostOp), s.nextAgent = some .host → s.host.prog = .reset :: rest →
    step s = .next { State.reset with
      params := s.params
      draws := s.draws
      sched := s.sched.tail
      host := { s.host with prog := rest, trace := s.host.trace ++ [.reset] } }

/-! ### The whole machine -/

/-- The invariant holds at reset. -/
def Obligations.InvariantAtReset : Prop := Inv State.reset

/-- The invariant of R14, R22 to R26, R35, R37, R38, R81 to R84, R89, R90 and R105 is kept by every step. -/
def Obligations.InvariantKeptByStep : Prop :=
  ∀ s t : State, Inv s → step s = .next t → Inv t

/-- From a state of the invariant with an admitted program, a step answers a next state, of the invariant and with an
admitted program: no admitted run ever stops. -/
def Obligations.AdmittedRunsNeverStop : Prop :=
  ∀ s : State, Inv s → progWf s.host.prog = true →
    ∃ t, step s = .next t ∧ Inv t ∧ progWf t.host.prog = true

/-- R6: no step changes the configuration, which the model holds in State (log 4). -/
def Obligations.ConfigurationIsFixed : Prop :=
  ∀ s t : State, step s = .next t → t.params = s.params

/-- R32, R33, R35, R102: until a new run, NODE, ROOT and SYMCOUNT change at BUILD only, CODE at GEN only, and FREQ only
at a Host write to FREQ in LOAD with BUSY = 0, which changes the one entry written. -/
def Obligations.TablesChangeByCommandOnly : Prop :=
  ∀ s t : State, step s = .next t → ¬s.clearsNext →
    ((s.execsNext 0x02000000 ∧ s.phase = .load) ∨
      (t.node = s.node ∧ t.rootValid = s.rootValid ∧ t.rootIdx = s.rootIdx ∧ t.symcount = s.symcount)) ∧
    ((s.execsNext 0x03000000 ∧ s.phase = .tree) ∨ t.code = s.code) ∧
    ((s.nextAgent = some .host ∧ s.phase = .load ∧ s.busy = false ∧
        ∃ (off : Offset) (x : Byte) (v : Word), s.host.prog.head? = some (.wr off 4 v) ∧
          off.toNat = 0x0400 + 4 * x.toNat ∧
          ∀ y, freqAt t.freq y = if y = x then v else freqAt s.freq y) ∨
      t.freq = s.freq)

/-- R27, R28, R111: IN_COUNT counts ENC commands without error and OUT_COUNT bytes pushed, mod 2^32, until a new run. -/
def Obligations.CountersCount : Prop :=
  ∀ s t : State, step s = .next t →
    (s.clearsNext → t.inCount = 0 ∧ t.outCount = 0) ∧
    (¬s.clearsNext →
      (t.inCount = s.inCount + 1 ∧ t.phase = .encode ∧ ∃ x : Byte, s.execsNext (0x04000000 + x.setWidth 32)) ∨
      (t.inCount = s.inCount ∧ ((∃ x : Byte, s.execsNext (0x04000000 + x.setWidth 32)) → t.phase = .error))) ∧
    (¬s.clearsNext →
      (t.outCount = s.outCount + 1 ∧ t.fifo.length = s.fifo.length + 1) ∨
      (t.outCount = s.outCount ∧ t.fifo.length ≤ s.fifo.length))

/-- R117, R119, R122: with no Host step between, the Engine has no step left after 33 steps, one EXEC and at most 32
DRAINs: the run is over. It is complete where no byte is left in FIFO (log 15), and then none is left in BITBUF. -/
def Obligations.EngineFinishes : Prop :=
  ∀ s : State, Inv s → s.host.prog = [] →
    ∃ t : State, Host.Core.run Sys2Proof.core 33 s = .next t ∧ t.engineReady = false ∧ t.over = true ∧
      (t.complete = true ↔ t.fifo = []) ∧ (t.complete = true → t.bitbuf.length < 8)
end

