-- ==== Sys2Proof/Laws/Bits.lean ====
section
/-! SUPPORT. Bit strings as numbers (spec/00_scope.md R8) and as packed bytes (spec/43_bit_encoder.md R89). -/

namespace Sys2Proof.Machine

theorem bitsVal_nil : bitsVal [] = 0 := rfl

theorem bitsVal_append_bit (bs : Bits) (b : Bool) : bitsVal (bs ++ [b]) = 2 * bitsVal bs + b.toNat := by
  simp [bitsVal, List.foldl_append]

theorem bitsVal_lt (bs : Bits) : bitsVal bs < 2 ^ bs.length := by
  induction bs using List.reverseRecOn with
  | nil => simp [bitsVal]
  | append_singleton bs b ih =>
    rw [bitsVal_append_bit, List.length_append, List.length_singleton, Nat.pow_succ]
    have := Bool.toNat_le b
    omega

/-- Bit i of the number is the i-th bit from the string's end (R36). -/
theorem bitsVal_testBit (bs : Bits) (i : Nat) (h : i < bs.length) :
    bs[bs.length - 1 - i]? = some ((bitsVal bs).testBit i) := by
  induction bs using List.reverseRecOn generalizing i with
  | nil => simp at h
  | append_singleton bs b ih =>
    rw [List.length_append, List.length_singleton] at h
    rw [bitsVal_append_bit, List.length_append, List.length_singleton]
    cases i with
    | zero =>
      have : bs.length + 1 - 1 - 0 = bs.length := by omega
      rw [this, List.getElem?_append_right le_rfl, Nat.sub_self]
      cases b <;> simp [Nat.testBit_zero]
    | succ i =>
      have he : bs.length + 1 - 1 - (i + 1) = bs.length - 1 - i := by omega
      rw [he, List.getElem?_append_left (by omega), ih i (by omega), Nat.testBit_succ]
      have : (2 * bitsVal bs + b.toNat) / 2 = bitsVal bs := by
        have := Bool.toNat_lt b
        omega
      rw [this]

/-- The byte DRAIN packs holds the first eight bits, the first in bit 7 (R89). -/
theorem byteBits_leadByte (b : Bits) (h : 8 ≤ b.length) : byteBits (leadByte b) = b.take 8 := by
  have hlen : (b.take 8).length = 8 := by rw [List.length_take]; omega
  refine List.ext_getElem? fun i => ?_
  by_cases hi : i < 8
  · have ht := bitsVal_testBit (b.take 8) (7 - i) (by omega)
    have he : (b.take 8).length - 1 - (7 - i) = i := by omega
    rw [he] at ht
    rw [ht]
    have hr : (List.range 8)[i]? = some i := by
      rw [List.getElem?_range (by omega)]
    simp only [byteBits, List.getElem?_map, hr, Option.map_some, leadByte, Option.some.injEq]
    rw [BitVec.getMsbD_eq_getLsbD, BitVec.getLsbD_ofNat]
    have h8 : 7 - i < 8 := by omega
    simp [hi, h8]
  · have h1 : (byteBits (leadByte b))[i]? = none := List.getElem?_eq_none (by simp [byteBits]; omega)
    have h2 : (b.take 8)[i]? = none := List.getElem?_eq_none (by omega)
    rw [h1, h2]

theorem byteBits_length (b : Byte) : (byteBits b).length = 8 := by
  simp [byteBits]

/-- DRAIN moves eight bits from BITBUF to FIFO and neither drops nor changes one (R89). -/
theorem drain_stream (s : State) (h : 8 ≤ s.bitbuf.length) : s.drain.stream = s.stream := by
  simp only [State.stream, State.drain, List.flatMap_append, List.flatMap_cons, List.flatMap_nil, List.append_nil,
    byteBits_leadByte _ h, List.append_assoc, List.take_append_drop]

end Sys2Proof.Machine
end

