-- ==== Sys2Proof/Laws/TreeBuilder.lean ====
section
/-! SUPPORT. What BUILD's operations do: the seed, the priority order, one merge, and that `buildTree` makes the
Huffman tree `TreeShape` describes (spec/41_tree_builder.md R75 to R81). -/

namespace Sys2Proof.Machine

/-! ### The arena -/

theorem nodeAt_setNode (a : Arena) (c n : Nat) (x : Node) :
    nodeAt (setNode a c x) n = if n = c ∧ c < 511 then x else nodeAt a n := by
  have hlen : a.toList.length = 511 := by simp
  simp only [nodeAt, slot?, setNode, Vector.toList_mk, List.getElem?_set, hlen]
  by_cases h : c = n
  · subst h
    by_cases hc : c < 511
    · simp [hc]
    · have : a.toList[c]? = none := List.getElem?_eq_none (by omega)
      simp only [hc, if_true, if_false, and_false, this, Option.getD_none]
  · have : ¬(n = c ∧ c < 511) := fun hh => h hh.1.symm
    simp only [h, this, if_false]

theorem nodeAt_seedArena (t : FreqTable) (n : Nat) :
    nodeAt (seedArena t) n = if n < 256 then leafNode (t.toList.getD n 0) else emptyNode := by
  have hlen : (t.toList.map leafNode).length = 256 := by simp
  simp only [nodeAt, slot?, seedArena, Vector.toList_mk, List.getElem?_append, hlen]
  by_cases h : n < 256
  · have hn : n < t.toList.length := by simpa using h
    simp only [h, if_true, List.getElem?_map, List.getElem?_eq_getElem hn, Option.map_some, Option.getD_some,
      List.getD_eq_getElem _ _ hn]
  · simp only [h, if_false, List.getElem?_replicate]
    by_cases h2 : n - 256 < 255
    · simp only [h2, if_true, Option.getD_some]
    · simp only [h2, if_false, Option.getD_none]

theorem freqAt_eq_getD (t : FreqTable) (x : Byte) : t.toList.getD x.toNat 0 = freqAt t x := by
  have hx : x.toNat < 256 := x.isLt
  have hn : x.toNat < t.toList.length := by simpa using hx
  rw [List.getD_eq_getElem _ _ hn]
  simp [freqAt]

theorem leafNode_valid (v : Word) : (leafNode v).valid = true ↔ v ≠ 0 := by
  unfold leafNode
  split <;> simp_all [emptyNode]

/-! ### The symbols -/

theorem mem_symbolsOf (t : FreqTable) (n : Nat) : n ∈ symbolsOf t ↔ n < 256 ∧ t.toList.getD n 0 ≠ 0 := by
  have hlen : t.toList.length = 256 := by simp
  simp only [symbolsOf, List.mem_map, List.mem_filter, List.mem_zipIdx_iff_getElem?, decide_eq_true_eq]
  constructor
  · rintro ⟨⟨v, i⟩, ⟨hv, hne⟩, rfl⟩
    have hi : i < t.toList.length := (List.getElem?_eq_some_iff.mp hv).1
    refine ⟨by omega, ?_⟩
    simp only [List.getD_eq_getElem?_getD, hv, Option.getD_some]
    exact hne
  · rintro ⟨hn, hne⟩
    have hi : n < t.toList.length := by omega
    refine ⟨(t.toList[n], n), ⟨List.getElem?_eq_getElem hi, ?_⟩, rfl⟩
    rwa [List.getD_eq_getElem _ _ hi] at hne

theorem symbolsOf_nodup (t : FreqTable) : (symbolsOf t).Nodup := by
  have h : (symbolsOf t).Sublist (t.toList.zipIdx.map Prod.snd) := List.filter_sublist.map _
  refine h.nodup ?_
  rw [List.zipIdx_map_snd]
  exact List.nodup_range'

theorem symbolsOf_length (t : FreqTable) : (symbolsOf t).length = symbolCount t := by
  rw [symbolsOf, List.length_map, ← List.countP_eq_length_filter, symbolCount]
  conv => rhs; rw [← List.zipIdx_map_fst 0 t.toList, List.countP_map]
  rfl

theorem symbolCount_le (t : FreqTable) : symbolCount t ≤ 256 := by
  have := List.countP_le_length (p := fun v : Word => decide (v ≠ 0)) (l := t.toList)
  simpa [symbolCount] using this

/-! ### The priority order -/

theorem keyLt_iff (a : Arena) (x y : Nat) : keyLt a x y = true ↔ keyBefore a x y := by
  simp only [keyLt, keyBefore, freqOf, Bool.or_eq_true, Bool.and_eq_true, decide_eq_true_eq, BitVec.lt_def,
    BitVec.toNat_inj]

theorem keyBefore_total (a : Arena) {x y : Nat} (h : x ≠ y) : keyBefore a x y ∨ keyBefore a y x := by
  unfold keyBefore; omega

theorem keyBefore_trans (a : Arena) {x y z : Nat} (h : keyBefore a x y) (h' : keyBefore a y z) : keyBefore a x z := by
  unfold keyBefore at *; omega

theorem keyBefore_asymm (a : Arena) {x y : Nat} (h : keyBefore a x y) : ¬keyBefore a y x := by
  unfold keyBefore at *; omega

theorem least_spec (a : Arena) (x : Nat) (xs : List Nat) : isLeast a (· ∈ x :: xs) (least a x xs) := by
  induction xs generalizing x with
  | nil => exact ⟨by simp [least], by simp [least]⟩
  | cons y ys ih =>
    unfold least
    split
    · rename_i hlt
      have hlt := (keyLt_iff a y x).mp hlt
      obtain ⟨hm, hl⟩ := ih y
      refine ⟨List.mem_cons_of_mem _ hm, fun z hz hne => ?_⟩
      rcases List.mem_cons.mp hz with rfl | hz
      · by_cases hy : y = least a y ys
        · rw [← hy]; exact hlt
        · exact keyBefore_trans a (hl y List.mem_cons_self hy) hlt
      · exact hl z hz hne
    · rename_i hlt
      have hlt : ¬keyBefore a y x := fun h => hlt ((keyLt_iff a y x).mpr h)
      obtain ⟨hm, hl⟩ := ih x
      refine ⟨?_, fun z hz hne => ?_⟩
      · rcases List.mem_cons.mp hm with h | h
        · rw [h]; exact List.mem_cons_self
        · exact List.mem_cons_of_mem _ (List.mem_cons_of_mem _ h)
      · rcases List.mem_cons.mp hz with rfl | hz
        · exact hl z List.mem_cons_self hne
        · rcases List.mem_cons.mp hz with rfl | hz
          · by_cases hzx : z = x
            · subst hzx; exact hl z List.mem_cons_self hne
            · have hxz := (keyBefore_total a hzx).resolve_left hlt
              by_cases hx : x = least a x ys
              · rw [← hx]; exact hxz
              · exact keyBefore_trans a (hl x List.mem_cons_self hx) hxz
          · exact hl z (List.mem_cons_of_mem _ hz) hne

theorem popLeast_spec {a : Arena} {q q' : List Nat} {x : Nat} (h : popLeast a q = some (x, q')) :
    isLeast a (· ∈ q) x ∧ q' = q.erase x := by
  cases q with
  | nil => simp [popLeast] at h
  | cons y ys =>
    simp only [popLeast, Option.some.injEq, Prod.mk.injEq] at h
    obtain ⟨rfl, rfl⟩ := h
    exact ⟨least_spec a y ys, rfl⟩

theorem popLeast_isSome {a : Arena} {q : List Nat} (h : q ≠ []) : ∃ x q', popLeast a q = some (x, q') := by
  cases q with
  | nil => exact absurd rfl h
  | cons y ys => exact ⟨_, _, rfl⟩

/-! ### One merge -/

theorem waits_congr {a a' : Arena} {c : Nat} (h : ∀ n, n < c → nodeAt a n = nodeAt a' n) (n : Nat) :
    waits a c n ↔ waits a' c n := by
  unfold waits leftOf rightOf
  constructor
  · rintro ⟨hv, hn, hj⟩
    exact ⟨by rw [← h n hn]; exact hv, hn, fun j h1 h2 => by rw [← h j h2]; exact hj j h1 h2⟩
  · rintro ⟨hv, hn, hj⟩
    exact ⟨by rw [h n hn]; exact hv, hn, fun j h1 h2 => by rw [h j h2]; exact hj j h1 h2⟩

theorem isLeast_congr {a a' : Arena} {c : Nat} {P P' : Nat → Prop} (h : ∀ n, n < c → nodeAt a n = nodeAt a' n)
    (hP : ∀ n, P n ↔ P' n) (hlt : ∀ n, P n → n < c) {x : Nat} (hx : isLeast a P x) : isLeast a' P' x := by
  refine ⟨(hP x).mp hx.1, fun y hy hne => ?_⟩
  have := hx.2 y ((hP y).mpr hy) hne
  unfold keyBefore freqOf at *
  rwa [← h x (hlt x hx.1), ← h y (hlt y ((hP y).mpr hy))]

theorem MergeOk.congr {a a' : Arena} {c : Nat} (h : ∀ n, n ≤ c → nodeAt a n = nodeAt a' n) (hm : MergeOk a c) :
    MergeOk a' c := by
  have hlt : ∀ n, n < c → nodeAt a n = nodeAt a' n := fun n hn => h n (by omega)
  have hl : leftOf a' c = leftOf a c := by unfold leftOf; rw [h c le_rfl]
  have hr : rightOf a' c = rightOf a c := by unfold rightOf; rw [h c le_rfl]
  have hL := hm.left.1.2.1
  have hR := hm.right.1.1.2.1
  refine ⟨?_, ?_, ?_, ?_, ?_⟩
  · rw [← h c le_rfl]; exact hm.valid
  · rw [← h c le_rfl]; exact hm.inner
  · have := hm.sum
    rw [hl, hr]
    unfold freqOf at *
    rwa [← h c le_rfl, ← hlt _ hL, ← hlt _ hR]
  · rw [hl]
    exact isLeast_congr hlt (waits_congr hlt) (fun n hn => hn.2.1) hm.left
  · rw [hr, hl]
    exact isLeast_congr hlt (fun n => and_congr_left' (waits_congr hlt n)) (fun n hn => hn.1.2.1) hm.right

/-- The arena and Q after m merges of a table with k symbols. -/
structure Merged (t : FreqTable) (k m : Nat) (b : Builder) : Prop where
  leaves : ∀ n, n < 256 → nodeAt b.arena n = leafNode (t.toList.getD n 0)
  merges : ∀ j, j < m → MergeOk b.arena (256 + j)
  unused : ∀ j, m ≤ j → nodeAt b.arena (256 + j) = emptyNode
  mem : ∀ n, n ∈ b.q ↔ waits b.arena (256 + m) n
  nodup : b.q.Nodup
  length : b.q.length + m = k
  small : k ≤ 256
  weight : (b.q.map (freqOf b.arena)).sum = totalWeight t

theorem sum_map_erase {f : Nat → Nat} {q : List Nat} {x : Nat} (h : x ∈ q) :
    (q.map f).sum = f x + ((q.erase x).map f).sum := by
  have := (List.perm_cons_erase h).map f
  rw [this.sum_eq, List.map_cons, List.sum_cons]

theorem le_sum_map {f : Nat → Nat} {q : List Nat} {x : Nat} (h : x ∈ q) : f x ≤ (q.map f).sum := by
  rw [sum_map_erase (f := f) h]; omega

theorem leafNode_f (v : Word) : (leafNode v).f.toNat = v.toNat := by
  unfold leafNode
  split
  · rename_i h; rw [h]; rfl
  · have := v.isLt
    rw [BitVec.toNat_setWidth, Nat.mod_eq_of_lt]
    omega

/-- The weights of the seed's Q are the frequencies (R75). -/
theorem seed_weight (t : FreqTable) : ((seed t).q.map (freqOf (seed t).arena)).sum = totalWeight t := by
  have hf : ∀ e ∈ t.toList.zipIdx.filter (fun e : Word × Nat => decide (e.1 ≠ 0)), freqOf (seedArena t) e.2 = e.1.toNat := by
    rintro ⟨v, i⟩ he
    have hv := List.mem_zipIdx_iff_getElem?.mp (List.mem_filter.mp he).1
    have hi : i < t.toList.length := (List.getElem?_eq_some_iff.mp hv).1
    have hlen : t.toList.length = 256 := by simp
    have hlt : i < 256 := by omega
    simp only [freqOf, nodeAt_seedArena, hlt, if_true, List.getD_eq_getElem?_getD]
    dsimp only at hv
    rw [hv, Option.getD_some, leafNode_f]
  have hz : ∀ l : List (Word × Nat), ((l.filter fun e => decide (e.1 ≠ 0)).map fun e => e.1.toNat).sum
      = (l.map fun e => e.1.toNat).sum := by
    intro l
    induction l with
    | nil => rfl
    | cons e l ih =>
      rw [List.filter_cons]
      split
      · rw [List.map_cons, List.map_cons, List.sum_cons, List.sum_cons, ih]
      · rename_i h
        have h0 : e.1 = 0 := by simpa using h
        rw [ih, List.map_cons, List.sum_cons, h0]
        simp
  simp only [seed, symbolsOf, List.map_map]
  have hm : List.map (freqOf (seedArena t) ∘ Prod.snd) (t.toList.zipIdx.filter fun e : Word × Nat => decide (e.1 ≠ 0))
      = (t.toList.zipIdx.filter fun e : Word × Nat => decide (e.1 ≠ 0)).map fun e => e.1.toNat :=
    List.map_congr_left hf
  rw [hm, hz]
  unfold totalWeight
  conv => rhs; rw [← List.zipIdx_map_fst 0 t.toList, List.map_map]
  rfl

theorem totalWeight_lt (t : FreqTable) : totalWeight t < 2 ^ 40 := by
  have h := List.sum_le_card_nsmul (t.toList.map BitVec.toNat) (2 ^ 32 - 1) (by
    intro v hv
    obtain ⟨w, _, rfl⟩ := List.mem_map.mp hv
    have := w.isLt; omega)
  simp only [List.length_map, Vector.length_toList, smul_eq_mul] at h
  unfold totalWeight
  omega

theorem seed_merged (t : FreqTable) : Merged t (symbolCount t) 0 (seed t) := by
  refine ⟨?_, ?_, ?_, ?_, symbolsOf_nodup t, ?_, symbolCount_le t, ?_⟩
  · intro n hn
    simp only [seed, nodeAt_seedArena, hn, if_true]
  · intro j hj; omega
  · intro j _
    have : ¬(256 + j < 256) := by omega
    simp only [seed, nodeAt_seedArena, this, if_false]
  · intro n
    simp only [seed, mem_symbolsOf, waits, nodeAt_seedArena]
    constructor
    · rintro ⟨hn, hne⟩
      refine ⟨?_, by omega, fun j h1 h2 => by omega⟩
      simpa only [hn, if_true, leafNode_valid] using hne
    · rintro ⟨hv, hn, _⟩
      have hn : n < 256 := by omega
      simp only [hn, if_true, leafNode_valid] at hv
      exact ⟨hn, hv⟩
  · simp only [seed, symbolsOf_length, Nat.add_zero]
  · exact seed_weight t

theorem merge_none {m : Nat} {b : Builder} : merge m b = none ↔ b.q.length < 2 := by
  unfold merge
  cases hq : b.q with
  | nil => simp [popLeast]
  | cons y ys =>
    obtain ⟨x, q1, h1⟩ := popLeast_isSome (a := b.arena) (q := y :: ys) (by simp)
    obtain ⟨hx, rfl⟩ := popLeast_spec h1
    have hlen := List.length_erase_of_mem hx.1
    rw [h1]
    dsimp only
    by_cases he : (y :: ys).erase x = []
    · rw [he] at hlen ⊢
      simp only [List.length_nil, List.length_cons] at hlen
      simp only [popLeast, List.length_cons, true_iff]; omega
    · obtain ⟨z, q2, h2⟩ := popLeast_isSome (a := b.arena) he
      rw [h2]
      have : 0 < ((y :: ys).erase x).length := List.length_pos_of_ne_nil he
      simp only [List.length_cons] at *
      simp only [reduceCtorEq, false_iff]; omega

theorem merge_merged {t : FreqTable} {k m : Nat} {b b' : Builder} (hb : Merged t k m b) (h : merge m b = some b') :
    Merged t k (m + 1) b' := by
  unfold merge at h
  split at h
  · simp at h
  rename_i x q1 h1
  split at h
  · simp at h
  rename_i y q2 h2
  simp only [Option.some.injEq] at h
  obtain ⟨hx, rfl⟩ := popLeast_spec h1
  obtain ⟨hy, rfl⟩ := popLeast_spec h2
  subst h
  have hq := hb.nodup
  have hxq : x ∈ b.q := hx.1
  have hye : y ∈ b.q.erase x := hy.1
  obtain ⟨hyx, hyq⟩ := (hq.mem_erase_iff).mp hye
  have hxw := (hb.mem x).mp hxq
  have hyw := (hb.mem y).mp hyq
  have hlen1 := List.length_erase_of_mem hxq
  have hlen2 := List.length_erase_of_mem hye
  have hpos1 : 0 < (b.q.erase x).length := List.length_pos_of_mem hye
  have hlen := hb.length
  have hsmall := hb.small
  have hc : 256 + m < 511 := by omega
  have hget : ∀ n, n ≠ 256 + m → nodeAt (setNode b.arena (256 + m) (innerNode b.arena x y)) n = nodeAt b.arena n := by
    intro n hn
    rw [nodeAt_setNode, if_neg (fun hh => hn hh.1)]
  have hnew : nodeAt (setNode b.arena (256 + m) (innerNode b.arena x y)) (256 + m) = innerNode b.arena x y := by
    rw [nodeAt_setNode, if_pos ⟨rfl, hc⟩]
  have hxlt : x < 256 + m := hxw.2.1
  have hylt : y < 256 + m := hyw.2.1
  have hleft : leftOf (setNode b.arena (256 + m) (innerNode b.arena x y)) (256 + m) = x := by
    rw [leftOf, hnew]
    simp only [innerNode, BitVec.toNat_ofNat]
    rw [Nat.mod_eq_of_lt]; omega
  have hright : rightOf (setNode b.arena (256 + m) (innerNode b.arena x y)) (256 + m) = y := by
    rw [rightOf, hnew]
    simp only [innerNode, BitVec.toNat_ofNat]
    rw [Nat.mod_eq_of_lt]; omega
  have hw := hb.weight
  have htot := totalWeight_lt t
  rw [sum_map_erase (f := freqOf b.arena) hxq, sum_map_erase (f := freqOf b.arena) hye] at hw
  have hsum : freqOf (setNode b.arena (256 + m) (innerNode b.arena x y)) (256 + m)
      = freqOf b.arena x + freqOf b.arena y := by
    rw [freqOf, hnew]
    simp only [innerNode, BitVec.toNat_add]
    refine Nat.mod_eq_of_lt ?_
    unfold freqOf at hw
    omega
  have hlow : ∀ n, n < 256 + m → nodeAt b.arena n = nodeAt (setNode b.arena (256 + m) (innerNode b.arena x y)) n :=
    fun n hn => (hget n (by omega)).symm
  have hwaits := waits_congr hlow
  refine ⟨?_, ?_, ?_, ?_, ?_, ?_, hsmall, ?_⟩
  · intro n hn
    dsimp only
    rw [hget n (by omega)]; exact hb.leaves n hn
  · intro j hj
    by_cases hjm : j = m
    · subst hjm
      refine ⟨?_, ?_, ?_, ?_, ?_⟩
      · rw [hnew]; rfl
      · rw [hnew]; rfl
      · dsimp only
        rw [hleft, hright, hsum]
        unfold freqOf
        rw [hget x (by omega), hget y (by omega)]
      · dsimp only
        rw [hleft]
        refine isLeast_congr hlow (fun n => ?_) (fun n hn => ((hb.mem n).mp hn).2.1) hx
        rw [hb.mem n, hwaits n]
      · dsimp only
        rw [hright, hleft]
        refine isLeast_congr hlow (fun n => ?_) (fun n hn => ((hb.mem n).mp (List.mem_of_mem_erase hn)).2.1) hy
        rw [hq.mem_erase_iff, hb.mem n, hwaits n, and_comm]
    · exact (hb.merges j (by omega)).congr fun n hn => (hget n (by omega)).symm
  · intro j hj
    dsimp only
    rw [hget _ (by omega)]; exact hb.unused j (by omega)
  · intro n
    dsimp only
    rw [List.mem_append, List.mem_singleton, (hq.erase x).mem_erase_iff, hq.mem_erase_iff, hb.mem n]
    constructor
    · rintro (⟨hny, hnx, hv, hlt, hj⟩ | rfl)
      · refine ⟨by rw [hget n (by omega)]; exact hv, by omega, fun j h1 h2 => ?_⟩
        by_cases hjm : j = 256 + m
        · subst hjm
          rw [hleft, hright]
          exact ⟨Ne.symm hnx, Ne.symm hny⟩
        · unfold leftOf rightOf
          rw [hget j hjm]
          exact hj j h1 (by omega)
      · refine ⟨by rw [hnew]; rfl, by omega, fun j h1 h2 => ?_⟩
        by_cases hjm : j = 256 + m
        · subst hjm
          rw [hleft, hright]; omega
        · have hM := hb.merges (j - 256) (by omega)
          have hje : 256 + (j - 256) = j := by omega
          rw [hje] at hM
          have hL := hM.left.1.2.1
          have hR := hM.right.1.1.2.1
          unfold leftOf rightOf at *
          rw [hget j hjm]
          constructor <;> omega
    · rintro ⟨hv, hlt, hj⟩
      by_cases hn : n = 256 + m
      · exact Or.inr hn
      · left
        rw [hget n hn] at hv
        have hlast := hj (256 + m) (by omega) (by omega)
        rw [hleft, hright] at hlast
        refine ⟨Ne.symm hlast.2, Ne.symm hlast.1, hv, by omega, fun j h1 h2 => ?_⟩
        have := hj j h1 (by omega)
        unfold leftOf rightOf at *
        rwa [hget j (by omega)] at this
  · dsimp only
    refine List.Nodup.append ((hq.erase x).erase y) (List.nodup_singleton _) ?_
    intro n hn hn'
    rw [List.mem_singleton] at hn'
    subst hn'
    have := (hb.mem _).mp (List.mem_of_mem_erase (List.mem_of_mem_erase hn))
    have := this.2.1
    omega
  · simp only [List.length_append, List.length_singleton]; omega
  · dsimp only
    rw [List.map_append, List.sum_append, List.map_singleton, List.sum_singleton, hsum]
    have hrest : ((b.q.erase x).erase y).map (freqOf (setNode b.arena (256 + m) (innerNode b.arena x y)))
        = ((b.q.erase x).erase y).map (freqOf b.arena) := by
      refine List.map_congr_left fun n hn => ?_
      have := ((hb.mem n).mp (List.mem_of_mem_erase (List.mem_of_mem_erase hn))).2.1
      unfold freqOf
      rw [hget n (by omega)]
    rw [hrest]; omega

theorem mergeAll_merged {t : FreqTable} {k : Nat} (d m : Nat) (b : Builder) (hb : Merged t k m b) (hd : k ≤ d + m + 1)
    (hk : m + 1 ≤ k) : Merged t k (k - 1) (mergeAll d m b) := by
  induction d generalizing m b with
  | zero =>
    have : m = k - 1 := by omega
    subst this
    exact hb
  | succ d ih =>
    unfold mergeAll
    split
    · rename_i h
      have := merge_none.mp h
      have := hb.length
      have hm : m = k - 1 := by omega
      subst hm
      exact hb
    · rename_i b' h
      have hlen : ¬b.q.length < 2 := fun hh => by rw [merge_none.mpr hh] at h; simp at h
      have := hb.length
      exact ih (m + 1) b' (merge_merged hb h) (by omega) (by omega)

/-- BUILD's arena and Q are those after k - 1 merges (R78, R81 item 1). -/
theorem buildTree_merged (t : FreqTable) (h : 1 ≤ symbolCount t) :
    Merged t (symbolCount t) (symbolCount t - 1) (buildTree t) := by
  refine mergeAll_merged _ 0 _ (seed_merged t) ?_ (by omega)
  have := (seed_merged t).length
  omega

/-- The root's F is the sum of all frequencies (R79). -/
theorem buildTree_weight (t : FreqTable) (h : 1 ≤ symbolCount t) :
    freqOf (buildTree t).arena (rootOf (buildTree t)) = totalWeight t := by
  have hm := buildTree_merged t h
  obtain ⟨r, hr⟩ : ∃ r, (buildTree t).q = [r] := List.length_eq_one_iff.mp (by have := hm.length; omega)
  have := hm.weight
  rw [hr] at this
  simpa [rootOf, hr] using this

/-- BUILD makes the Huffman tree of its frequency table (R75 to R81). -/
theorem buildTree_shape (t : FreqTable) (h : 1 ≤ symbolCount t) :
    TreeShape t (buildTree t).arena (symbolCount t) (rootOf (buildTree t)) := by
  have hm := buildTree_merged t h
  obtain ⟨r, hr⟩ : ∃ r, (buildTree t).q = [r] := List.length_eq_one_iff.mp (by have := hm.length; omega)
  refine ⟨rfl, h, ?_, fun m hk => hm.merges m (by omega), fun m hk => hm.unused m (by omega), fun n => ?_⟩
  · intro x
    have hx : x.toNat < 256 := x.isLt
    rw [hm.leaves _ hx, freqAt_eq_getD]
  · have he : 256 + (symbolCount t - 1) = 255 + symbolCount t := by omega
    rw [← he, ← hm.mem n, rootOf, hr]
    simp

end Sys2Proof.Machine
end

