-- ==== Sys2Proof/Laws/CodeGenerator.lean ====
section
/-! SUPPORT. What GEN's operations do: `assign` gives every leaf below a node its path, paths in a Huffman tree are
unique and reach every leaf, and `codesOf` gives the code table `codesMatch` describes (spec/42_code_generator.md R82 to
R86). -/

namespace Sys2Proof.Machine

theorem codeAt_set (t : CodeTable) (n : Nat) (h : n < 256) (p : Bits) (x : Byte) :
    codeAt (t.set n p h) x = if x.toNat = n then p else codeAt t x := by
  unfold codeAt
  rw [Vector.getElem_set]
  by_cases hn : n = x.toNat
  · simp [hn]
  · simp [hn, Ne.symm hn]

theorem codeAt_blank (x : Byte) : codeAt (Vector.replicate 256 []) x = [] := by
  simp [codeAt]

theorem slot?_eq {a : Arena} {n : Nat} (h : (nodeAt a n).valid = true) : slot? a n = some (nodeAt a n) := by
  unfold nodeAt at *
  cases hs : slot? a n with
  | none => rw [hs] at h; simp [emptyNode] at h
  | some x => rfl

/-- What `assign` needs of an arena: leaves are the slots below 256, and an inner node's children are valid and come
before it (R81 items 4 and 5). -/
structure Grounded (a : Arena) : Prop where
  leaf : ∀ n, (nodeAt a n).valid = true → ((nodeAt a n).leaf = true ↔ n < 256)
  left : ∀ n, (nodeAt a n).valid = true → 256 ≤ n → leftOf a n < n ∧ (nodeAt a (leftOf a n)).valid = true
  right : ∀ n, (nodeAt a n).valid = true → 256 ≤ n → rightOf a n < n ∧ (nodeAt a (rightOf a n)).valid = true

theorem TreeShape.inner {t : FreqTable} {a : Arena} {k root n : Nat} (h : TreeShape t a k root)
    (hv : (nodeAt a n).valid = true) (hn : 256 ≤ n) : n < 255 + k ∧ MergeOk a n := by
  obtain ⟨m, rfl⟩ : ∃ m, n = 256 + m := ⟨n - 256, by omega⟩
  by_cases hm : m + 1 < k
  · exact ⟨by omega, h.merges m hm⟩
  · rw [h.unused m (by omega)] at hv
    simp [emptyNode] at hv

theorem TreeShape.leaf {t : FreqTable} {a : Arena} {k root n : Nat} (h : TreeShape t a k root) (hn : n < 256) :
    nodeAt a n = leafNode (freqAt t (BitVec.ofNat 8 n)) := by
  have := h.leaves (BitVec.ofNat 8 n)
  rwa [BitVec.toNat_ofNat, Nat.mod_eq_of_lt (by omega)] at this

theorem TreeShape.grounded {t : FreqTable} {a : Arena} {k root : Nat} (h : TreeShape t a k root) : Grounded a := by
  refine ⟨fun n hv => ?_, fun n hv hn => ?_, fun n hv hn => ?_⟩
  · by_cases hn : n < 256
    · rw [h.leaf hn] at hv ⊢
      have hne := (leafNode_valid _).mp hv
      unfold leafNode
      rw [if_neg hne]
      simp [hn]
    · have := (h.inner hv (by omega)).2.inner
      rw [this]
      simp [hn]
  · have := (h.inner hv hn).2.left.1
    exact ⟨this.2.1, this.1⟩
  · have := (h.inner hv hn).2.right.1.1
    exact ⟨this.2.1, this.1⟩

theorem TreeShape.root_valid {t : FreqTable} {a : Arena} {k root : Nat} (h : TreeShape t a k root) :
    (nodeAt a root).valid = true ∧ root < 255 + k := by
  have := (h.lastLeft root).mpr rfl
  exact ⟨this.1, this.2.1⟩

theorem TreeShape.count_le {t : FreqTable} {a : Arena} {k root : Nat} (h : TreeShape t a k root) : k ≤ 256 := by
  rw [h.count]; exact symbolCount_le t

/-! ### Paths -/

theorem walk_leaf {a : Arena} {n : Nat} {p : Bits} (hv : (nodeAt a n).valid = true) (hl : (nodeAt a n).leaf = true) :
    walk a n p = if p = [] then some n else none := by
  cases p <;> simp [walk, hv, hl]

theorem walk_inner {a : Arena} {n : Nat} {b : Bool} {p : Bits} (hv : (nodeAt a n).valid = true)
    (hl : (nodeAt a n).leaf = false) : walk a n (b :: p) = walk a (if b then rightOf a n else leftOf a n) p := by
  simp [walk, hv, hl]

theorem walk_nil {a : Arena} {n m : Nat} : walk a n [] = some m ↔ (nodeAt a n).valid = true ∧ n = m := by
  simp [walk]

theorem walk_valid {a : Arena} {n m : Nat} {p : Bits} (h : walk a n p = some m) :
    (nodeAt a n).valid = true ∧ (nodeAt a m).valid = true := by
  induction p generalizing n with
  | nil => obtain ⟨hv, rfl⟩ := walk_nil.mp h; exact ⟨hv, hv⟩
  | cons b p ih =>
    unfold walk at h
    split at h
    · rename_i hc
      simp only [Bool.and_eq_true] at hc
      exact ⟨hc.1, (ih h).2⟩
    · simp at h

/-- One link after a path. -/
theorem walk_snoc {a : Arena} {n m : Nat} {p : Bits} {b : Bool} :
    walk a n (p ++ [b]) = some m ↔
      ∃ c, walk a n p = some c ∧ (nodeAt a c).leaf = false ∧ (nodeAt a m).valid = true ∧
        (if b then rightOf a c else leftOf a c) = m := by
  induction p generalizing n with
  | nil =>
    simp only [List.nil_append, walk_nil]
    constructor
    · intro h
      have hv := walk_valid h
      unfold walk at h
      split at h
      · rename_i hc
        simp only [Bool.and_eq_true, Bool.not_eq_true'] at hc
        exact ⟨n, ⟨hc.1, rfl⟩, hc.2, hv.2, (walk_nil.mp h).2⟩
      · simp at h
    · rintro ⟨c, ⟨hv, rfl⟩, hl, hm, he⟩
      rw [walk_inner hv hl, he, walk_nil]
      exact ⟨hm, rfl⟩
  | cons d p ih =>
    simp only [List.cons_append]
    by_cases hc : (nodeAt a n).valid && !(nodeAt a n).leaf
    · have h1 : walk a n (d :: (p ++ [b])) = walk a (if d then rightOf a n else leftOf a n) (p ++ [b]) := by
        conv => lhs; unfold walk
        rw [if_pos hc]
      have h2 : walk a n (d :: p) = walk a (if d then rightOf a n else leftOf a n) p := by
        conv => lhs; unfold walk
        rw [if_pos hc]
      rw [h1, h2]; exact ih
    · have h1 : walk a n (d :: (p ++ [b])) = none := by unfold walk; rw [if_neg hc]
      have h2 : walk a n (d :: p) = none := by unfold walk; rw [if_neg hc]
      rw [h1, h2]; simp

/-- A node has at most one parent, and its LEFT and RIGHT differ (R81 item 3). -/
theorem TreeShape.parent_unique {t : FreqTable} {a : Arena} {k root c c' : Nat} {b b' : Bool} (h : TreeShape t a k root)
    (hv : (nodeAt a c).valid = true) (hv' : (nodeAt a c').valid = true) (hc : 256 ≤ c) (hc' : 256 ≤ c')
    (he : (if b then rightOf a c else leftOf a c) = if b' then rightOf a c' else leftOf a c') : c = c' ∧ b = b' := by
  have key : ∀ {c c' : Nat} {b b' : Bool}, (nodeAt a c').valid = true → 256 ≤ c → 256 ≤ c' →
      (if b then rightOf a c else leftOf a c) = (if b' then rightOf a c' else leftOf a c') → ¬c < c' := by
    intro c c' b b' hv' hc hc' he hlt
    have hM := (h.inner hv' hc').2
    have hw : waits a c' (if b' then rightOf a c' else leftOf a c') := by
      cases b'
      · exact hM.left.1
      · exact hM.right.1.1
    have := hw.2.2 c hc hlt
    rw [← he] at this
    cases b <;> simp at this
  have h1 := key (b := b) (b' := b') hv' hc hc' he
  have h2 := key (b := b') (b' := b) hv hc' hc he.symm
  have hcc : c = c' := by omega
  subst hcc
  refine ⟨rfl, ?_⟩
  have hne := (h.inner hv hc).2.right.1.2
  cases b <;> cases b' <;> simp_all

/-- The root is the child of none (R81 item 3). -/
theorem TreeShape.root_no_parent {t : FreqTable} {a : Arena} {k root c : Nat} {b : Bool} (h : TreeShape t a k root)
    (hv : (nodeAt a c).valid = true) (hc : 256 ≤ c) : (if b then rightOf a c else leftOf a c) ≠ root := by
  have hr := (h.lastLeft root).mpr rfl
  have := hr.2.2 c hc (h.inner hv hc).1
  cases b <;> simp_all

/-- Every valid node but the root has a parent (R81 item 3). -/
theorem TreeShape.parent_exists {t : FreqTable} {a : Arena} {k root n : Nat} (h : TreeShape t a k root)
    (hv : (nodeAt a n).valid = true) (hn : n ≠ root) :
    ∃ (c : Nat) (b : Bool), 256 ≤ c ∧ c < 255 + k ∧ (nodeAt a c).valid = true ∧ (if b then rightOf a c else leftOf a c) = n := by
  have hlt : n < 255 + k := by
    by_cases hn' : n < 256
    · have := h.pos; omega
    · exact (h.inner hv (by omega)).1
  have hw : ¬waits a (255 + k) n := fun hh => hn ((h.lastLeft n).mp hh)
  simp only [waits, hv, hlt, true_and, not_forall] at hw
  obtain ⟨j, h1, h2, h3⟩ := hw
  have hM := h.merges (j - 256) (by omega)
  rw [show 256 + (j - 256) = j by omega] at hM
  by_cases hl : leftOf a j = n
  · exact ⟨j, false, h1, h2, hM.valid, hl⟩
  · refine ⟨j, true, h1, h2, hM.valid, ?_⟩
    by_contra hr
    exact h3 ⟨hl, hr⟩

/-- Every valid node is reached from the root. -/
theorem TreeShape.reaches {t : FreqTable} {a : Arena} {k root n : Nat} (h : TreeShape t a k root)
    (hv : (nodeAt a n).valid = true) : ∃ p, walk a root p = some n := by
  generalize hd : 511 - n = d
  induction d using Nat.strong_induction_on generalizing n with
  | _ d ih =>
    by_cases hn : n = root
    · subst hn
      exact ⟨[], walk_nil.mpr ⟨hv, rfl⟩⟩
    · obtain ⟨c, b, hc, hck, hcv, he⟩ := h.parent_exists hv hn
      have hg := h.grounded
      have hnc : n < c := by
        rw [← he]
        cases b
        · exact (hg.left c hcv hc).1
        · exact (hg.right c hcv hc).1
      have := h.count_le
      obtain ⟨p, hp⟩ := ih (511 - c) (by omega) hcv rfl
      refine ⟨p ++ [b], walk_snoc.mpr ⟨c, hp, ?_, hv, he⟩⟩
      exact (h.inner hcv hc).2.inner

/-- A node is reached by one path only. -/
theorem TreeShape.path_unique {t : FreqTable} {a : Arena} {k root n : Nat} (h : TreeShape t a k root) {p q : Bits}
    (hp : walk a root p = some n) (hq : walk a root q = some n) : p = q := by
  have hg := h.grounded
  have step : ∀ {c : Nat} {r : Bits}, walk a root r = some c → (nodeAt a c).leaf = false →
      (nodeAt a c).valid = true ∧ 256 ≤ c := by
    intro c r hr hl
    have hv := (walk_valid hr).2
    refine ⟨hv, ?_⟩
    by_contra hlt
    have := (hg.leaf c hv).mpr (by omega)
    rw [hl] at this; simp at this
  induction p using List.reverseRecOn generalizing q n with
  | nil =>
    obtain ⟨-, rfl⟩ := walk_nil.mp hp
    rcases List.eq_nil_or_concat q with rfl | ⟨q', b, rfl⟩
    · rfl
    · obtain ⟨c, hc, hl, -, he⟩ := walk_snoc.mp (List.concat_eq_append ▸ hq)
      have := step hc hl
      exact absurd he (h.root_no_parent this.1 this.2)
  | append_singleton p b ih =>
    obtain ⟨c, hc, hl, -, he⟩ := walk_snoc.mp hp
    have hcv := step hc hl
    rcases List.eq_nil_or_concat q with rfl | ⟨q', b', rfl⟩
    · obtain ⟨-, rfl⟩ := walk_nil.mp hq
      exact absurd he (h.root_no_parent hcv.1 hcv.2)
    · obtain ⟨c', hc', hl', -, he'⟩ := walk_snoc.mp (List.concat_eq_append ▸ hq)
      have hcv' := step hc' hl'
      obtain ⟨rfl, rfl⟩ := h.parent_unique (b := b) (b' := b') hcv.1 hcv'.1 hcv.2 hcv'.2 (he.trans he'.symm)
      rw [ih hc hc', List.concat_eq_append]

/-- A path from a node is no longer than the node's place in the arena (R84). -/
theorem Grounded.walk_length {a : Arena} (hg : Grounded a) {n m : Nat} {p : Bits} (h : walk a n p = some m) :
    p.length ≤ n - 255 := by
  induction p generalizing n with
  | nil => simp
  | cons b p ih =>
    have hv := (walk_valid h).1
    unfold walk at h
    split at h
    · rename_i hc
      simp only [Bool.and_eq_true, Bool.not_eq_true'] at hc
      have hn : 256 ≤ n := by
        by_contra hlt
        have := (hg.leaf n hv).mpr (by omega)
        rw [hc.2] at this; simp at this
      have hkid : (if b then rightOf a n else leftOf a n) < n := by
        cases b
        · exact (hg.left n hv hn).1
        · exact (hg.right n hv hn).1
      have := ih h
      rw [List.length_cons]; omega
    · simp at h

/-! ### The traversal -/

/-- `assign` has a result, gives every leaf below n a path to it after p, and leaves every other code (R82). -/
theorem Grounded.assign_spec {a : Arena} (hg : Grounded a) (d n : Nat) (p : Bits) (t : CodeTable)
    (hv : (nodeAt a n).valid = true) (hn : n < d) :
    ∃ t', assign a d n p t = some t' ∧ ∀ x : Byte,
      ((∃ q, walk a n q = some x.toNat) → ∃ q, walk a n q = some x.toNat ∧ codeAt t' x = p ++ q) ∧
      ((∀ q, walk a n q ≠ some x.toNat) → codeAt t' x = codeAt t x) := by
  induction d generalizing n p t with
  | zero => omega
  | succ d ih =>
    unfold assign
    rw [slot?_eq hv]
    dsimp only
    by_cases hl : (nodeAt a n).leaf = true
    · rw [if_pos hl]
      have hlt := (hg.leaf n hv).mp hl
      refine ⟨t.set n p hlt, by simp [writeCode, hlt], fun x => ⟨?_, fun hno => ?_⟩⟩
      · rintro ⟨q, hq⟩
        rw [walk_leaf hv hl] at hq
        split at hq
        · rename_i hqe
          subst hqe
          simp only [Option.some.injEq] at hq
          exact ⟨[], walk_nil.mpr ⟨hv, hq⟩, by rw [codeAt_set, if_pos hq.symm, List.append_nil]⟩
        · simp at hq
      · have : x.toNat ≠ n := fun he => hno [] (walk_nil.mpr ⟨hv, he.symm⟩)
        rw [codeAt_set, if_neg this]
    · rw [if_neg hl]
      have hlf : (nodeAt a n).leaf = false := by simpa using hl
      have hge : 256 ≤ n := by
        by_contra hlt
        exact hl ((hg.leaf n hv).mpr (by omega))
      obtain ⟨hll, hlv⟩ := hg.left n hv hge
      obtain ⟨hrl, hrv⟩ := hg.right n hv hge
      obtain ⟨t1, h1, s1⟩ := ih (leftOf a n) (p ++ [false]) t hlv (by omega)
      obtain ⟨t2, h2, s2⟩ := ih (rightOf a n) (p ++ [true]) t1 hrv (by omega)
      unfold leftOf at h1
      unfold rightOf at h2
      rw [h1]
      dsimp only
      refine ⟨t2, h2, fun x => ?_⟩
      have hnx : n ≠ x.toNat := by have := x.isLt; omega
      have hwl : ∀ q, walk a n (false :: q) = walk a (leftOf a n) q := fun q => by rw [walk_inner hv hlf]; rfl
      have hwr : ∀ q, walk a n (true :: q) = walk a (rightOf a n) q := fun q => by rw [walk_inner hv hlf]; rfl
      constructor
      · rintro ⟨q, hq⟩
        by_cases hR : ∃ r, walk a (rightOf a n) r = some x.toNat
        · obtain ⟨r, hr, hcr⟩ := (s2 x).1 hR
          exact ⟨true :: r, by rw [hwr]; exact hr, by rw [hcr]; simp⟩
        · have hR' : ∀ r, walk a (rightOf a n) r ≠ some x.toNat := fun r hr => hR ⟨r, hr⟩
          have hL : ∃ r, walk a (leftOf a n) r = some x.toNat := by
            cases q with
            | nil => exact absurd (walk_nil.mp hq).2 hnx
            | cons b q =>
              cases b
              · exact ⟨q, by rw [← hwl]; exact hq⟩
              · exact absurd (by rw [← hwr]; exact hq) (hR' q)
          obtain ⟨r, hr, hcr⟩ := (s1 x).1 hL
          exact ⟨false :: r, by rw [hwl]; exact hr, by rw [(s2 x).2 hR', hcr]; simp⟩
      · intro hno
        rw [(s2 x).2 fun r hr => hno (true :: r) (by rw [hwr]; exact hr),
          (s1 x).2 fun r hr => hno (false :: r) (by rw [hwl]; exact hr)]

/-- GEN has a result over the tree of BUILD, and it is the code table of the tree (R82, R83, R85). -/
theorem codesOf_spec {s : State} (h : TreeShape s.freq s.node s.symcount s.rootIdx.toNat) :
    ∃ t, codesOf s = some t ∧ codesMatch { s with code := t } := by
  obtain ⟨hrv, hrk⟩ := h.root_valid
  have hk := h.count_le
  have hvalid : ∀ x : Byte, (nodeAt s.node x.toNat).valid = true ↔ freqAt s.freq x ≠ 0 := by
    intro x
    rw [h.leaves x]; exact leafNode_valid _
  by_cases h1 : s.symcount = 1
  · have hlt : s.rootIdx.toNat < 256 := by omega
    refine ⟨(Vector.replicate 256 []).set s.rootIdx.toNat [false] hlt, by simp [codesOf, h1, writeCode, hlt], ?_⟩
    have honly : ∀ x : Byte, freqAt s.freq x ≠ 0 → x.toNat = s.rootIdx.toNat := by
      intro x hx
      refine (h.lastLeft x.toNat).mp ⟨(hvalid x).mpr hx, ?_, ?_⟩
      · have := x.isLt; omega
      · intro j h1 h2; omega
    intro x
    refine ⟨fun hx => ?_, fun hx _ => ?_, fun _ hne => absurd h1 hne⟩
    · have : x.toNat ≠ s.rootIdx.toNat := by
        intro he
        rw [← he] at hrv
        exact (hvalid x).mp hrv hx
      simp only [codeAt_set, this, if_false, codeAt_blank]
    · simp only [codeAt_set, honly x hx, if_true]
  · obtain ⟨t, ht, hs⟩ := h.grounded.assign_spec 511 s.rootIdx.toNat [] (Vector.replicate 256 []) hrv (by omega)
    refine ⟨t, by simp only [codesOf, h1, if_false, ht], fun x => ⟨fun hx => ?_, fun _ he => absurd he h1, fun hx _ p => ?_⟩⟩
    · have hno : ∀ q, walk s.node s.rootIdx.toNat q ≠ some x.toNat := fun q hq =>
        (hvalid x).mp (walk_valid hq).2 hx
      simp only [(hs x).2 hno, codeAt_blank]
    · obtain ⟨q, hq, hc⟩ := (hs x).1 (h.reaches ((hvalid x).mpr hx))
      simp only [List.nil_append] at hc
      simp only [hc]
      constructor
      · rintro rfl; exact hq
      · intro hp; exact h.path_unique hq hp

/-- Every code is at most 255 bits long, and a coded symbol's is at least 1 bit long (R84). -/
theorem codesMatch.length {s : State} (hm : codesMatch s) (h : TreeShape s.freq s.node s.symcount s.rootIdx.toNat)
    (x : Byte) : (codeAt s.code x).length ≤ 255 ∧ (freqAt s.freq x ≠ 0 → codeAt s.code x ≠ []) := by
  obtain ⟨hrv, hrk⟩ := h.root_valid
  have hk := h.count_le
  obtain ⟨h0, h1, h2⟩ := hm x
  by_cases hx : freqAt s.freq x = 0
  · rw [h0 hx]
    exact ⟨by simp, fun hne => absurd hx hne⟩
  · by_cases hc : s.symcount = 1
    · rw [h1 hx hc]
      exact ⟨by simp, fun _ => by simp⟩
    · have hw := (h2 hx hc (codeAt s.code x)).mp rfl
      refine ⟨by have := h.grounded.walk_length hw; omega, fun _ he => ?_⟩
      rw [he] at hw
      have hr := (walk_nil.mp hw).2
      have hroot := (h.lastLeft s.rootIdx.toNat).mpr rfl
      have hlast := h.merges (s.symcount - 2) (by have := h.pos; omega)
      have hpos := h.pos
      have := (h.lastLeft (256 + (s.symcount - 2))).mp ⟨hlast.valid, by omega, fun j h1 h2 => ?_⟩
      · have := x.isLt; omega
      · have hj := h.merges (j - 256) (by omega)
        rw [show 256 + (j - 256) = j by omega] at hj
        have hL := hj.left.1.2.1
        have hR := hj.right.1.1.2.1
        constructor <;> omega

/-- No code of the tree begins another (R86 item 1). -/
theorem codesMatch.apart {s : State} (hm : codesMatch s) (h : TreeShape s.freq s.node s.symcount s.rootIdx.toNat)
    {x y : Byte} (hx : freqAt s.freq x ≠ 0) (hy : freqAt s.freq y ≠ 0) {r : Bits}
    (he : codeAt s.code y = codeAt s.code x ++ r) : x = y := by
  by_cases hc : s.symcount = 1
  · have only : ∀ z : Byte, freqAt s.freq z ≠ 0 → z.toNat = s.rootIdx.toNat := by
      intro z hz
      refine (h.lastLeft z.toNat).mp ⟨by rw [h.leaves z]; exact (leafNode_valid _).mpr hz, ?_, ?_⟩
      · have := z.isLt; omega
      · intro j h1 h2; omega
    exact BitVec.eq_of_toNat_eq ((only x hx).trans (only y hy).symm)
  · have hwx := ((hm x).2.2 hx hc _).mp rfl
    have hwy := ((hm y).2.2 hy hc _).mp rfl
    rw [he] at hwy
    rcases List.eq_nil_or_concat r with rfl | ⟨r', b, rfl⟩
    · rw [List.append_nil, hwx] at hwy
      exact BitVec.eq_of_toNat_eq (Option.some.inj hwy)
    · exfalso
      rw [List.concat_eq_append, ← List.append_assoc] at hwy
      have hleaf : (nodeAt s.node x.toNat).leaf = true :=
        (h.grounded.leaf _ (walk_valid hwx).2).mpr x.isLt
      have hinner : ∀ (l : Bits) (c : Nat), walk s.node s.rootIdx.toNat (codeAt s.code x ++ l) = some c → l = [] := by
        intro l
        induction l using List.reverseRecOn with
        | nil => intro _ _; rfl
        | append_singleton l b ih =>
          intro c hcw
          rw [← List.append_assoc] at hcw
          obtain ⟨c', hc', hl', -, -⟩ := walk_snoc.mp hcw
          have := ih c' hc'
          subst this
          rw [List.append_nil, hwx] at hc'
          rw [← Option.some.inj hc', hleaf] at hl'
          simp at hl'
      have := hinner (r' ++ [b]) y.toNat (by rw [← List.append_assoc]; exact hwy)
      simp at this

end Sys2Proof.Machine
end

