-- ==== Sys2Proof/Laws/State.lean ====
section
/-! SUPPORT. One lemma per field per update of the state, so that no later proof unfolds a record update. -/

namespace Sys2Proof.Machine

/-! ### doClear -/

@[simp] theorem doClear_phase (s : State) : (s.doClear).phase = .load := rfl
@[simp] theorem doClear_cmdPending (s : State) : (s.doClear).cmdPending = s.cmdPending := rfl
@[simp] theorem doClear_freq (s : State) : (s.doClear).freq = Vector.replicate 256 0 := rfl
@[simp] theorem doClear_node (s : State) : (s.doClear).node = Vector.replicate 511 emptyNode := rfl
@[simp] theorem doClear_rootValid (s : State) : (s.doClear).rootValid = false := rfl
@[simp] theorem doClear_rootIdx (s : State) : (s.doClear).rootIdx = 0 := rfl
@[simp] theorem doClear_symcount (s : State) : (s.doClear).symcount = 0 := rfl
@[simp] theorem doClear_code (s : State) : (s.doClear).code = Vector.replicate 256 [] := rfl
@[simp] theorem doClear_bitbuf (s : State) : (s.doClear).bitbuf = [] := rfl
@[simp] theorem doClear_fifo (s : State) : (s.doClear).fifo = [] := rfl
@[simp] theorem doClear_pad (s : State) : (s.doClear).pad = 0 := rfl
@[simp] theorem doClear_inCount (s : State) : (s.doClear).inCount = 0 := rfl
@[simp] theorem doClear_outCount (s : State) : (s.doClear).outCount = 0 := rfl
@[simp] theorem doClear_errCause (s : State) : (s.doClear).errCause = .none := rfl
@[simp] theorem doClear_errMulti (s : State) : (s.doClear).errMulti = false := rfl
@[simp] theorem doClear_errInfo (s : State) : (s.doClear).errInfo = 0 := rfl
@[simp] theorem doClear_params (s : State) : (s.doClear).params = s.params := rfl
@[simp] theorem doClear_draws (s : State) : (s.doClear).draws = s.draws := rfl
@[simp] theorem doClear_sched (s : State) : (s.doClear).sched = s.sched := rfl
@[simp] theorem doClear_host (s : State) : (s.doClear).host = s.host := rfl

/-! ### applyReset -/

@[simp] theorem applyReset_phase (s : State) : (s.applyReset).phase = .load := rfl
@[simp] theorem applyReset_cmdPending (s : State) : (s.applyReset).cmdPending = some 0x01000000 := rfl
@[simp] theorem applyReset_freq (s : State) : (s.applyReset).freq = Vector.replicate 256 0 := rfl
@[simp] theorem applyReset_node (s : State) : (s.applyReset).node = Vector.replicate 511 emptyNode := rfl
@[simp] theorem applyReset_rootValid (s : State) : (s.applyReset).rootValid = false := rfl
@[simp] theorem applyReset_rootIdx (s : State) : (s.applyReset).rootIdx = 0 := rfl
@[simp] theorem applyReset_symcount (s : State) : (s.applyReset).symcount = 0 := rfl
@[simp] theorem applyReset_code (s : State) : (s.applyReset).code = Vector.replicate 256 [] := rfl
@[simp] theorem applyReset_bitbuf (s : State) : (s.applyReset).bitbuf = [] := rfl
@[simp] theorem applyReset_fifo (s : State) : (s.applyReset).fifo = [] := rfl
@[simp] theorem applyReset_pad (s : State) : (s.applyReset).pad = 0 := rfl
@[simp] theorem applyReset_inCount (s : State) : (s.applyReset).inCount = 0 := rfl
@[simp] theorem applyReset_outCount (s : State) : (s.applyReset).outCount = 0 := rfl
@[simp] theorem applyReset_errCause (s : State) : (s.applyReset).errCause = .none := rfl
@[simp] theorem applyReset_errMulti (s : State) : (s.applyReset).errMulti = false := rfl
@[simp] theorem applyReset_errInfo (s : State) : (s.applyReset).errInfo = 0 := rfl
@[simp] theorem applyReset_params (s : State) : (s.applyReset).params = s.params := rfl
@[simp] theorem applyReset_draws (s : State) : (s.applyReset).draws = s.draws := rfl
@[simp] theorem applyReset_sched (s : State) : (s.applyReset).sched = s.sched := rfl
@[simp] theorem applyReset_host (s : State) : (s.applyReset).host = s.host := rfl

/-! ### drain -/

@[simp] theorem drain_phase (s : State) : (s.drain).phase = s.phase := rfl
@[simp] theorem drain_cmdPending (s : State) : (s.drain).cmdPending = s.cmdPending := rfl
@[simp] theorem drain_freq (s : State) : (s.drain).freq = s.freq := rfl
@[simp] theorem drain_node (s : State) : (s.drain).node = s.node := rfl
@[simp] theorem drain_rootValid (s : State) : (s.drain).rootValid = s.rootValid := rfl
@[simp] theorem drain_rootIdx (s : State) : (s.drain).rootIdx = s.rootIdx := rfl
@[simp] theorem drain_symcount (s : State) : (s.drain).symcount = s.symcount := rfl
@[simp] theorem drain_code (s : State) : (s.drain).code = s.code := rfl
@[simp] theorem drain_bitbuf (s : State) : (s.drain).bitbuf = s.bitbuf.drop 8 := rfl
@[simp] theorem drain_fifo (s : State) : (s.drain).fifo = s.fifo ++ [leadByte s.bitbuf] := rfl
@[simp] theorem drain_pad (s : State) : (s.drain).pad = s.pad := rfl
@[simp] theorem drain_inCount (s : State) : (s.drain).inCount = s.inCount := rfl
@[simp] theorem drain_outCount (s : State) : (s.drain).outCount = s.outCount + 1 := rfl
@[simp] theorem drain_errCause (s : State) : (s.drain).errCause = s.errCause := rfl
@[simp] theorem drain_errMulti (s : State) : (s.drain).errMulti = s.errMulti := rfl
@[simp] theorem drain_errInfo (s : State) : (s.drain).errInfo = s.errInfo := rfl
@[simp] theorem drain_params (s : State) : (s.drain).params = s.params := rfl
@[simp] theorem drain_draws (s : State) : (s.drain).draws = s.draws := rfl
@[simp] theorem drain_sched (s : State) : (s.drain).sched = s.sched := rfl
@[simp] theorem drain_host (s : State) : (s.drain).host = s.host := rfl

/-! ### record -/

@[simp] theorem record_phase (s : State) (e : Event) : (s.record e).phase = s.phase := rfl
@[simp] theorem record_cmdPending (s : State) (e : Event) : (s.record e).cmdPending = s.cmdPending := rfl
@[simp] theorem record_freq (s : State) (e : Event) : (s.record e).freq = s.freq := rfl
@[simp] theorem record_node (s : State) (e : Event) : (s.record e).node = s.node := rfl
@[simp] theorem record_rootValid (s : State) (e : Event) : (s.record e).rootValid = s.rootValid := rfl
@[simp] theorem record_rootIdx (s : State) (e : Event) : (s.record e).rootIdx = s.rootIdx := rfl
@[simp] theorem record_symcount (s : State) (e : Event) : (s.record e).symcount = s.symcount := rfl
@[simp] theorem record_code (s : State) (e : Event) : (s.record e).code = s.code := rfl
@[simp] theorem record_bitbuf (s : State) (e : Event) : (s.record e).bitbuf = s.bitbuf := rfl
@[simp] theorem record_fifo (s : State) (e : Event) : (s.record e).fifo = s.fifo := rfl
@[simp] theorem record_pad (s : State) (e : Event) : (s.record e).pad = s.pad := rfl
@[simp] theorem record_inCount (s : State) (e : Event) : (s.record e).inCount = s.inCount := rfl
@[simp] theorem record_outCount (s : State) (e : Event) : (s.record e).outCount = s.outCount := rfl
@[simp] theorem record_errCause (s : State) (e : Event) : (s.record e).errCause = s.errCause := rfl
@[simp] theorem record_errMulti (s : State) (e : Event) : (s.record e).errMulti = s.errMulti := rfl
@[simp] theorem record_errInfo (s : State) (e : Event) : (s.record e).errInfo = s.errInfo := rfl
@[simp] theorem record_params (s : State) (e : Event) : (s.record e).params = s.params := rfl
@[simp] theorem record_draws (s : State) (e : Event) : (s.record e).draws = s.draws := rfl
@[simp] theorem record_sched (s : State) (e : Event) : (s.record e).sched = s.sched := rfl
@[simp] theorem record_host (s : State) (e : Event) : (s.record e).host = { s.host with trace := s.host.trace ++ [e] } := rfl

/-! ### bind -/

@[simp] theorem bind_phase (s : State) (n : String) (v : Word) : (s.bind n v).phase = s.phase := rfl
@[simp] theorem bind_cmdPending (s : State) (n : String) (v : Word) : (s.bind n v).cmdPending = s.cmdPending := rfl
@[simp] theorem bind_freq (s : State) (n : String) (v : Word) : (s.bind n v).freq = s.freq := rfl
@[simp] theorem bind_node (s : State) (n : String) (v : Word) : (s.bind n v).node = s.node := rfl
@[simp] theorem bind_rootValid (s : State) (n : String) (v : Word) : (s.bind n v).rootValid = s.rootValid := rfl
@[simp] theorem bind_rootIdx (s : State) (n : String) (v : Word) : (s.bind n v).rootIdx = s.rootIdx := rfl
@[simp] theorem bind_symcount (s : State) (n : String) (v : Word) : (s.bind n v).symcount = s.symcount := rfl
@[simp] theorem bind_code (s : State) (n : String) (v : Word) : (s.bind n v).code = s.code := rfl
@[simp] theorem bind_bitbuf (s : State) (n : String) (v : Word) : (s.bind n v).bitbuf = s.bitbuf := rfl
@[simp] theorem bind_fifo (s : State) (n : String) (v : Word) : (s.bind n v).fifo = s.fifo := rfl
@[simp] theorem bind_pad (s : State) (n : String) (v : Word) : (s.bind n v).pad = s.pad := rfl
@[simp] theorem bind_inCount (s : State) (n : String) (v : Word) : (s.bind n v).inCount = s.inCount := rfl
@[simp] theorem bind_outCount (s : State) (n : String) (v : Word) : (s.bind n v).outCount = s.outCount := rfl
@[simp] theorem bind_errCause (s : State) (n : String) (v : Word) : (s.bind n v).errCause = s.errCause := rfl
@[simp] theorem bind_errMulti (s : State) (n : String) (v : Word) : (s.bind n v).errMulti = s.errMulti := rfl
@[simp] theorem bind_errInfo (s : State) (n : String) (v : Word) : (s.bind n v).errInfo = s.errInfo := rfl
@[simp] theorem bind_params (s : State) (n : String) (v : Word) : (s.bind n v).params = s.params := rfl
@[simp] theorem bind_draws (s : State) (n : String) (v : Word) : (s.bind n v).draws = s.draws := rfl
@[simp] theorem bind_sched (s : State) (n : String) (v : Word) : (s.bind n v).sched = s.sched := rfl
@[simp] theorem bind_host (s : State) (n : String) (v : Word) : (s.bind n v).host = { s.host with vars := (n, v) :: s.host.vars } := rfl

/-! ### push -/

@[simp] theorem push_phase (s : State) (ops : List HostOp) : (s.push ops).phase = s.phase := rfl
@[simp] theorem push_cmdPending (s : State) (ops : List HostOp) : (s.push ops).cmdPending = s.cmdPending := rfl
@[simp] theorem push_freq (s : State) (ops : List HostOp) : (s.push ops).freq = s.freq := rfl
@[simp] theorem push_node (s : State) (ops : List HostOp) : (s.push ops).node = s.node := rfl
@[simp] theorem push_rootValid (s : State) (ops : List HostOp) : (s.push ops).rootValid = s.rootValid := rfl
@[simp] theorem push_rootIdx (s : State) (ops : List HostOp) : (s.push ops).rootIdx = s.rootIdx := rfl
@[simp] theorem push_symcount (s : State) (ops : List HostOp) : (s.push ops).symcount = s.symcount := rfl
@[simp] theorem push_code (s : State) (ops : List HostOp) : (s.push ops).code = s.code := rfl
@[simp] theorem push_bitbuf (s : State) (ops : List HostOp) : (s.push ops).bitbuf = s.bitbuf := rfl
@[simp] theorem push_fifo (s : State) (ops : List HostOp) : (s.push ops).fifo = s.fifo := rfl
@[simp] theorem push_pad (s : State) (ops : List HostOp) : (s.push ops).pad = s.pad := rfl
@[simp] theorem push_inCount (s : State) (ops : List HostOp) : (s.push ops).inCount = s.inCount := rfl
@[simp] theorem push_outCount (s : State) (ops : List HostOp) : (s.push ops).outCount = s.outCount := rfl
@[simp] theorem push_errCause (s : State) (ops : List HostOp) : (s.push ops).errCause = s.errCause := rfl
@[simp] theorem push_errMulti (s : State) (ops : List HostOp) : (s.push ops).errMulti = s.errMulti := rfl
@[simp] theorem push_errInfo (s : State) (ops : List HostOp) : (s.push ops).errInfo = s.errInfo := rfl
@[simp] theorem push_params (s : State) (ops : List HostOp) : (s.push ops).params = s.params := rfl
@[simp] theorem push_draws (s : State) (ops : List HostOp) : (s.push ops).draws = s.draws := rfl
@[simp] theorem push_sched (s : State) (ops : List HostOp) : (s.push ops).sched = s.sched := rfl
@[simp] theorem push_host (s : State) (ops : List HostOp) : (s.push ops).host = { s.host with prog := ops ++ s.host.prog } := rfl

/-! ### emit -/

@[simp] theorem emit_phase (s : State) (b : Byte) : (s.emit b).phase = s.phase := rfl
@[simp] theorem emit_cmdPending (s : State) (b : Byte) : (s.emit b).cmdPending = s.cmdPending := rfl
@[simp] theorem emit_freq (s : State) (b : Byte) : (s.emit b).freq = s.freq := rfl
@[simp] theorem emit_node (s : State) (b : Byte) : (s.emit b).node = s.node := rfl
@[simp] theorem emit_rootValid (s : State) (b : Byte) : (s.emit b).rootValid = s.rootValid := rfl
@[simp] theorem emit_rootIdx (s : State) (b : Byte) : (s.emit b).rootIdx = s.rootIdx := rfl
@[simp] theorem emit_symcount (s : State) (b : Byte) : (s.emit b).symcount = s.symcount := rfl
@[simp] theorem emit_code (s : State) (b : Byte) : (s.emit b).code = s.code := rfl
@[simp] theorem emit_bitbuf (s : State) (b : Byte) : (s.emit b).bitbuf = s.bitbuf := rfl
@[simp] theorem emit_fifo (s : State) (b : Byte) : (s.emit b).fifo = s.fifo := rfl
@[simp] theorem emit_pad (s : State) (b : Byte) : (s.emit b).pad = s.pad := rfl
@[simp] theorem emit_inCount (s : State) (b : Byte) : (s.emit b).inCount = s.inCount := rfl
@[simp] theorem emit_outCount (s : State) (b : Byte) : (s.emit b).outCount = s.outCount := rfl
@[simp] theorem emit_errCause (s : State) (b : Byte) : (s.emit b).errCause = s.errCause := rfl
@[simp] theorem emit_errMulti (s : State) (b : Byte) : (s.emit b).errMulti = s.errMulti := rfl
@[simp] theorem emit_errInfo (s : State) (b : Byte) : (s.emit b).errInfo = s.errInfo := rfl
@[simp] theorem emit_params (s : State) (b : Byte) : (s.emit b).params = s.params := rfl
@[simp] theorem emit_draws (s : State) (b : Byte) : (s.emit b).draws = s.draws := rfl
@[simp] theorem emit_sched (s : State) (b : Byte) : (s.emit b).sched = s.sched := rfl
@[simp] theorem emit_host (s : State) (b : Byte) : (s.emit b).host = { s.host with out := s.host.out ++ [b] } := rfl

/-! ### advance -/

@[simp] theorem advance_phase (s : State) : (s.advance).phase = s.phase := rfl
@[simp] theorem advance_cmdPending (s : State) : (s.advance).cmdPending = s.cmdPending := rfl
@[simp] theorem advance_freq (s : State) : (s.advance).freq = s.freq := rfl
@[simp] theorem advance_node (s : State) : (s.advance).node = s.node := rfl
@[simp] theorem advance_rootValid (s : State) : (s.advance).rootValid = s.rootValid := rfl
@[simp] theorem advance_rootIdx (s : State) : (s.advance).rootIdx = s.rootIdx := rfl
@[simp] theorem advance_symcount (s : State) : (s.advance).symcount = s.symcount := rfl
@[simp] theorem advance_code (s : State) : (s.advance).code = s.code := rfl
@[simp] theorem advance_bitbuf (s : State) : (s.advance).bitbuf = s.bitbuf := rfl
@[simp] theorem advance_fifo (s : State) : (s.advance).fifo = s.fifo := rfl
@[simp] theorem advance_pad (s : State) : (s.advance).pad = s.pad := rfl
@[simp] theorem advance_inCount (s : State) : (s.advance).inCount = s.inCount := rfl
@[simp] theorem advance_outCount (s : State) : (s.advance).outCount = s.outCount := rfl
@[simp] theorem advance_errCause (s : State) : (s.advance).errCause = s.errCause := rfl
@[simp] theorem advance_errMulti (s : State) : (s.advance).errMulti = s.errMulti := rfl
@[simp] theorem advance_errInfo (s : State) : (s.advance).errInfo = s.errInfo := rfl
@[simp] theorem advance_params (s : State) : (s.advance).params = s.params := rfl
@[simp] theorem advance_draws (s : State) : (s.advance).draws = s.draws := rfl
@[simp] theorem advance_sched (s : State) : (s.advance).sched = s.sched.tail := rfl
@[simp] theorem advance_host (s : State) : (s.advance).host = s.host := rfl

/-! ### withPending -/

@[simp] theorem withPending_phase (s : State) (w : Word) : (s.withPending w).phase = s.phase := rfl
@[simp] theorem withPending_cmdPending (s : State) (w : Word) : (s.withPending w).cmdPending = some w := rfl
@[simp] theorem withPending_freq (s : State) (w : Word) : (s.withPending w).freq = s.freq := rfl
@[simp] theorem withPending_node (s : State) (w : Word) : (s.withPending w).node = s.node := rfl
@[simp] theorem withPending_rootValid (s : State) (w : Word) : (s.withPending w).rootValid = s.rootValid := rfl
@[simp] theorem withPending_rootIdx (s : State) (w : Word) : (s.withPending w).rootIdx = s.rootIdx := rfl
@[simp] theorem withPending_symcount (s : State) (w : Word) : (s.withPending w).symcount = s.symcount := rfl
@[simp] theorem withPending_code (s : State) (w : Word) : (s.withPending w).code = s.code := rfl
@[simp] theorem withPending_bitbuf (s : State) (w : Word) : (s.withPending w).bitbuf = s.bitbuf := rfl
@[simp] theorem withPending_fifo (s : State) (w : Word) : (s.withPending w).fifo = s.fifo := rfl
@[simp] theorem withPending_pad (s : State) (w : Word) : (s.withPending w).pad = s.pad := rfl
@[simp] theorem withPending_inCount (s : State) (w : Word) : (s.withPending w).inCount = s.inCount := rfl
@[simp] theorem withPending_outCount (s : State) (w : Word) : (s.withPending w).outCount = s.outCount := rfl
@[simp] theorem withPending_errCause (s : State) (w : Word) : (s.withPending w).errCause = s.errCause := rfl
@[simp] theorem withPending_errMulti (s : State) (w : Word) : (s.withPending w).errMulti = s.errMulti := rfl
@[simp] theorem withPending_errInfo (s : State) (w : Word) : (s.withPending w).errInfo = s.errInfo := rfl
@[simp] theorem withPending_params (s : State) (w : Word) : (s.withPending w).params = s.params := rfl
@[simp] theorem withPending_draws (s : State) (w : Word) : (s.withPending w).draws = s.draws := rfl
@[simp] theorem withPending_sched (s : State) (w : Word) : (s.withPending w).sched = .engine :: s.sched := rfl
@[simp] theorem withPending_host (s : State) (w : Word) : (s.withPending w).host = s.host := rfl

/-! ### raise: the fields it never changes -/

@[simp] theorem raise_freq (s : State) (c : Cause) (i : Word) : (s.raise c i).freq = s.freq := by
  unfold State.raise; split <;> rfl
@[simp] theorem raise_node (s : State) (c : Cause) (i : Word) : (s.raise c i).node = s.node := by
  unfold State.raise; split <;> rfl
@[simp] theorem raise_rootValid (s : State) (c : Cause) (i : Word) : (s.raise c i).rootValid = s.rootValid := by
  unfold State.raise; split <;> rfl
@[simp] theorem raise_rootIdx (s : State) (c : Cause) (i : Word) : (s.raise c i).rootIdx = s.rootIdx := by
  unfold State.raise; split <;> rfl
@[simp] theorem raise_symcount (s : State) (c : Cause) (i : Word) : (s.raise c i).symcount = s.symcount := by
  unfold State.raise; split <;> rfl
@[simp] theorem raise_code (s : State) (c : Cause) (i : Word) : (s.raise c i).code = s.code := by
  unfold State.raise; split <;> rfl
@[simp] theorem raise_pad (s : State) (c : Cause) (i : Word) : (s.raise c i).pad = s.pad := by
  unfold State.raise; split <;> rfl
@[simp] theorem raise_inCount (s : State) (c : Cause) (i : Word) : (s.raise c i).inCount = s.inCount := by
  unfold State.raise; split <;> rfl
@[simp] theorem raise_outCount (s : State) (c : Cause) (i : Word) : (s.raise c i).outCount = s.outCount := by
  unfold State.raise; split <;> rfl
@[simp] theorem raise_params (s : State) (c : Cause) (i : Word) : (s.raise c i).params = s.params := by
  unfold State.raise; split <;> rfl
@[simp] theorem raise_draws (s : State) (c : Cause) (i : Word) : (s.raise c i).draws = s.draws := by
  unfold State.raise; split <;> rfl
@[simp] theorem raise_sched (s : State) (c : Cause) (i : Word) : (s.raise c i).sched = s.sched := by
  unfold State.raise; split <;> rfl
@[simp] theorem raise_host (s : State) (c : Cause) (i : Word) : (s.raise c i).host = s.host := by
  unfold State.raise; split <;> rfl

/-! ### accept: the fields it never changes -/

@[simp] theorem accept_freq (s : State) (v : Word) : (s.accept v).freq = s.freq := by
  unfold State.accept; split
  · rfl
  · split <;> simp
@[simp] theorem accept_node (s : State) (v : Word) : (s.accept v).node = s.node := by
  unfold State.accept; split
  · rfl
  · split <;> simp
@[simp] theorem accept_rootValid (s : State) (v : Word) : (s.accept v).rootValid = s.rootValid := by
  unfold State.accept; split
  · rfl
  · split <;> simp
@[simp] theorem accept_rootIdx (s : State) (v : Word) : (s.accept v).rootIdx = s.rootIdx := by
  unfold State.accept; split
  · rfl
  · split <;> simp
@[simp] theorem accept_symcount (s : State) (v : Word) : (s.accept v).symcount = s.symcount := by
  unfold State.accept; split
  · rfl
  · split <;> simp
@[simp] theorem accept_code (s : State) (v : Word) : (s.accept v).code = s.code := by
  unfold State.accept; split
  · rfl
  · split <;> simp
@[simp] theorem accept_pad (s : State) (v : Word) : (s.accept v).pad = s.pad := by
  unfold State.accept; split
  · rfl
  · split <;> simp
@[simp] theorem accept_inCount (s : State) (v : Word) : (s.accept v).inCount = s.inCount := by
  unfold State.accept; split
  · rfl
  · split <;> simp
@[simp] theorem accept_outCount (s : State) (v : Word) : (s.accept v).outCount = s.outCount := by
  unfold State.accept; split
  · rfl
  · split <;> simp
@[simp] theorem accept_params (s : State) (v : Word) : (s.accept v).params = s.params := by
  unfold State.accept; split
  · rfl
  · split <;> simp
@[simp] theorem accept_draws (s : State) (v : Word) : (s.accept v).draws = s.draws := by
  unfold State.accept; split
  · rfl
  · split <;> simp
@[simp] theorem accept_sched (s : State) (v : Word) : (s.accept v).sched = s.sched := by
  unfold State.accept; split
  · rfl
  · split <;> simp
@[simp] theorem accept_host (s : State) (v : Word) : (s.accept v).host = s.host := by
  unfold State.accept; split
  · rfl
  · split <;> simp

/-! ### freqWrite: the fields it never changes -/

@[simp] theorem freqWrite_node (s : State) (x : Byte) (off : Offset) (v : Word) : (s.freqWrite x off v).node = s.node := by
  unfold State.freqWrite; split
  · simp
  · split <;> simp
@[simp] theorem freqWrite_rootValid (s : State) (x : Byte) (off : Offset) (v : Word) : (s.freqWrite x off v).rootValid = s.rootValid := by
  unfold State.freqWrite; split
  · simp
  · split <;> simp
@[simp] theorem freqWrite_rootIdx (s : State) (x : Byte) (off : Offset) (v : Word) : (s.freqWrite x off v).rootIdx = s.rootIdx := by
  unfold State.freqWrite; split
  · simp
  · split <;> simp
@[simp] theorem freqWrite_symcount (s : State) (x : Byte) (off : Offset) (v : Word) : (s.freqWrite x off v).symcount = s.symcount := by
  unfold State.freqWrite; split
  · simp
  · split <;> simp
@[simp] theorem freqWrite_code (s : State) (x : Byte) (off : Offset) (v : Word) : (s.freqWrite x off v).code = s.code := by
  unfold State.freqWrite; split
  · simp
  · split <;> simp
@[simp] theorem freqWrite_pad (s : State) (x : Byte) (off : Offset) (v : Word) : (s.freqWrite x off v).pad = s.pad := by
  unfold State.freqWrite; split
  · simp
  · split <;> simp
@[simp] theorem freqWrite_inCount (s : State) (x : Byte) (off : Offset) (v : Word) : (s.freqWrite x off v).inCount = s.inCount := by
  unfold State.freqWrite; split
  · simp
  · split <;> simp
@[simp] theorem freqWrite_outCount (s : State) (x : Byte) (off : Offset) (v : Word) : (s.freqWrite x off v).outCount = s.outCount := by
  unfold State.freqWrite; split
  · simp
  · split <;> simp
@[simp] theorem freqWrite_params (s : State) (x : Byte) (off : Offset) (v : Word) : (s.freqWrite x off v).params = s.params := by
  unfold State.freqWrite; split
  · simp
  · split <;> simp
@[simp] theorem freqWrite_draws (s : State) (x : Byte) (off : Offset) (v : Word) : (s.freqWrite x off v).draws = s.draws := by
  unfold State.freqWrite; split
  · simp
  · split <;> simp
@[simp] theorem freqWrite_sched (s : State) (x : Byte) (off : Offset) (v : Word) : (s.freqWrite x off v).sched = s.sched := by
  unfold State.freqWrite; split
  · simp
  · split <;> simp
@[simp] theorem freqWrite_host (s : State) (x : Byte) (off : Offset) (v : Word) : (s.freqWrite x off v).host = s.host := by
  unfold State.freqWrite; split
  · simp
  · split <;> simp

/-! ### memWrite: the fields it never changes -/

@[simp] theorem memWrite_node (s : State) (off : Offset) (v : Word) : (s.memWrite off v).node = s.node := by
  unfold State.memWrite; split <;> simp
@[simp] theorem memWrite_rootValid (s : State) (off : Offset) (v : Word) : (s.memWrite off v).rootValid = s.rootValid := by
  unfold State.memWrite; split <;> simp
@[simp] theorem memWrite_rootIdx (s : State) (off : Offset) (v : Word) : (s.memWrite off v).rootIdx = s.rootIdx := by
  unfold State.memWrite; split <;> simp
@[simp] theorem memWrite_symcount (s : State) (off : Offset) (v : Word) : (s.memWrite off v).symcount = s.symcount := by
  unfold State.memWrite; split <;> simp
@[simp] theorem memWrite_code (s : State) (off : Offset) (v : Word) : (s.memWrite off v).code = s.code := by
  unfold State.memWrite; split <;> simp
@[simp] theorem memWrite_pad (s : State) (off : Offset) (v : Word) : (s.memWrite off v).pad = s.pad := by
  unfold State.memWrite; split <;> simp
@[simp] theorem memWrite_inCount (s : State) (off : Offset) (v : Word) : (s.memWrite off v).inCount = s.inCount := by
  unfold State.memWrite; split <;> simp
@[simp] theorem memWrite_outCount (s : State) (off : Offset) (v : Word) : (s.memWrite off v).outCount = s.outCount := by
  unfold State.memWrite; split <;> simp
@[simp] theorem memWrite_params (s : State) (off : Offset) (v : Word) : (s.memWrite off v).params = s.params := by
  unfold State.memWrite; split <;> simp
@[simp] theorem memWrite_draws (s : State) (off : Offset) (v : Word) : (s.memWrite off v).draws = s.draws := by
  unfold State.memWrite; split <;> simp
@[simp] theorem memWrite_sched (s : State) (off : Offset) (v : Word) : (s.memWrite off v).sched = s.sched := by
  unfold State.memWrite; split <;> simp
@[simp] theorem memWrite_host (s : State) (off : Offset) (v : Word) : (s.memWrite off v).host = s.host := by
  unfold State.memWrite; split <;> simp

/-! ### afterRead: the fields it never changes -/

@[simp] theorem afterRead_phase (s : State) (off : Offset) : (s.afterRead off).phase = s.phase := by
  unfold State.afterRead; split
  · rfl
  · split <;> rfl
@[simp] theorem afterRead_cmdPending (s : State) (off : Offset) : (s.afterRead off).cmdPending = s.cmdPending := by
  unfold State.afterRead; split
  · rfl
  · split <;> rfl
@[simp] theorem afterRead_freq (s : State) (off : Offset) : (s.afterRead off).freq = s.freq := by
  unfold State.afterRead; split
  · rfl
  · split <;> rfl
@[simp] theorem afterRead_node (s : State) (off : Offset) : (s.afterRead off).node = s.node := by
  unfold State.afterRead; split
  · rfl
  · split <;> rfl
@[simp] theorem afterRead_rootValid (s : State) (off : Offset) : (s.afterRead off).rootValid = s.rootValid := by
  unfold State.afterRead; split
  · rfl
  · split <;> rfl
@[simp] theorem afterRead_rootIdx (s : State) (off : Offset) : (s.afterRead off).rootIdx = s.rootIdx := by
  unfold State.afterRead; split
  · rfl
  · split <;> rfl
@[simp] theorem afterRead_symcount (s : State) (off : Offset) : (s.afterRead off).symcount = s.symcount := by
  unfold State.afterRead; split
  · rfl
  · split <;> rfl
@[simp] theorem afterRead_code (s : State) (off : Offset) : (s.afterRead off).code = s.code := by
  unfold State.afterRead; split
  · rfl
  · split <;> rfl
@[simp] theorem afterRead_bitbuf (s : State) (off : Offset) : (s.afterRead off).bitbuf = s.bitbuf := by
  unfold State.afterRead; split
  · rfl
  · split <;> rfl
@[simp] theorem afterRead_pad (s : State) (off : Offset) : (s.afterRead off).pad = s.pad := by
  unfold State.afterRead; split
  · rfl
  · split <;> rfl
@[simp] theorem afterRead_inCount (s : State) (off : Offset) : (s.afterRead off).inCount = s.inCount := by
  unfold State.afterRead; split
  · rfl
  · split <;> rfl
@[simp] theorem afterRead_outCount (s : State) (off : Offset) : (s.afterRead off).outCount = s.outCount := by
  unfold State.afterRead; split
  · rfl
  · split <;> rfl
@[simp] theorem afterRead_errCause (s : State) (off : Offset) : (s.afterRead off).errCause = s.errCause := by
  unfold State.afterRead; split
  · rfl
  · split <;> rfl
@[simp] theorem afterRead_errMulti (s : State) (off : Offset) : (s.afterRead off).errMulti = s.errMulti := by
  unfold State.afterRead; split
  · rfl
  · split <;> rfl
@[simp] theorem afterRead_errInfo (s : State) (off : Offset) : (s.afterRead off).errInfo = s.errInfo := by
  unfold State.afterRead; split
  · rfl
  · split <;> rfl
@[simp] theorem afterRead_params (s : State) (off : Offset) : (s.afterRead off).params = s.params := by
  unfold State.afterRead; split
  · rfl
  · split <;> rfl
@[simp] theorem afterRead_sched (s : State) (off : Offset) : (s.afterRead off).sched = s.sched := by
  unfold State.afterRead; split
  · rfl
  · split <;> rfl
@[simp] theorem afterRead_host (s : State) (off : Offset) : (s.afterRead off).host = s.host := by
  unfold State.afterRead; split
  · rfl
  · split <;> rfl

/-! ### raise: what it writes (R105) -/

theorem raise_of_error {s : State} (h : s.phase = .error) (c : Cause) (i : Word) :
    s.raise c i = { s with errMulti := true } := by
  unfold State.raise; rw [if_pos h]

theorem raise_of_ne {s : State} (h : s.phase ≠ .error) (c : Cause) (i : Word) :
    s.raise c i = { s with errCause := c, errInfo := i, phase := .error, cmdPending := none, bitbuf := [], fifo := [] } := by
  unfold State.raise; rw [if_neg h]

@[simp] theorem raise_phase (s : State) (c : Cause) (i : Word) : (s.raise c i).phase = .error := by
  unfold State.raise; split
  · assumption
  · rfl

end Sys2Proof.Machine
end

