-- ==== Sys2Proof/Laws/Ops.lean ====
section
/-! SUPPORT. One lemma for each shared operation, saying once everything it can do: the error entry, the Host's
writes and reads, a command's checks, each command, each agent's step, and the step of the machine. -/

namespace Sys2Proof.Machine

/-- `accept` either fills CMD_PENDING, with a word that is CLEAR or a BUSY of 0, or raises BUSY_WRITE (R68). -/
theorem accept_cases (s : State) (v : Word) :
    ((v = clearWord ∨ s.busy = false) ∧ s.accept v = { s with cmdPending := some v }) ∨
    (v ≠ clearWord ∧ s.busy = true ∧ s.accept v = s.raise .busyWrite 0x00000004) := by
  unfold State.accept
  by_cases hv : v = clearWord
  · rw [if_pos hv]; exact .inl ⟨.inl hv, rfl⟩
  · rw [if_neg hv]
    cases hb : s.busy
    · exact .inl ⟨.inr rfl, by simp⟩
    · exact .inr ⟨hv, rfl, by simp⟩

/-- `freqWrite` writes FREQ in LOAD with BUSY = 0, and raises BUSY_WRITE or FREQ_LOCKED else (R50). -/
theorem freqWrite_cases (s : State) (x : Byte) (off : Offset) (v : Word) :
    (s.busy = true ∧ s.freqWrite x off v = s.raise .busyWrite (off.setWidth 32)) ∨
    (s.busy = false ∧ s.phase ≠ .load ∧ s.freqWrite x off v = s.raise .freqLocked (off.setWidth 32)) ∨
    (s.busy = false ∧ s.phase = .load ∧ s.freqWrite x off v = { s with freq := s.freq.set x.toNat v x.isLt }) := by
  unfold State.freqWrite
  cases hb : s.busy
  · by_cases hp : s.phase = .load
    · exact .inr (.inr ⟨rfl, hp, by simp [hp]⟩)
    · exact .inr (.inl ⟨rfl, hp, by simp [hp]⟩)
  · exact .inl ⟨rfl, by simp⟩

/-- A write is `accept` at CMD, `freqWrite` at FREQ, and nothing elsewhere (R49). -/
theorem memWrite_cases (s : State) (off : Offset) (v : Word) :
    (regAt off = .cmd ∧ s.memWrite off v = s.accept v) ∨
    (∃ x, regAt off = .freq x ∧ s.memWrite off v = s.freqWrite x off v) ∨
    (regAt off ≠ .cmd ∧ (∀ x, regAt off ≠ .freq x) ∧ s.memWrite off v = s) := by
  unfold State.memWrite
  split
  · rename_i h; exact .inl ⟨h, rfl⟩
  · rename_i x h; exact .inr (.inl ⟨x, h, rfl⟩)
  all_goals (rename_i h; exact .inr (.inr ⟨by simp [h], by simp [h], rfl⟩))

/-- A read uses up a draw, pops OUT_DATA, or changes nothing (R40, R51, R52). -/
theorem afterRead_cases (s : State) (off : Offset) :
    (isDraw s (regAt off) = true ∧ s.readWord off = Config.draw s.draws ∧
      s.afterRead off = { s with draws := s.draws + 1 }) ∨
    (regAt off = .outData ∧ s.readWord off = outDataWord s ∧ s.afterRead off = { s with fifo := s.fifo.tail }) ∨
    (isDraw s (regAt off) = false ∧ regAt off ≠ .outData ∧ s.readWord off = regValue s (regAt off) ∧
      s.afterRead off = s) := by
  unfold State.afterRead State.readWord
  cases hd : isDraw s (regAt off)
  · by_cases ho : regAt off = .outData
    · exact .inr (.inl ⟨ho, by simp [ho, regValue], by simp [ho]⟩)
    · exact .inr (.inr ⟨rfl, ho, by simp, by simp [ho]⟩)
  · exact .inl ⟨rfl, by simp, by simp⟩

/-- The checks before a command's own effect (R69, R70). -/
theorem guarded_cases (i : Instr) (s : State) (run : State → Result) :
    (s.phase = .error ∧ guarded i s run = .next { s with errMulti := true }) ∨
    (∃ c, s.phase ≠ .error ∧ phaseError i s.phase = some c ∧ guarded i s run = .next (s.raise c (encode i))) ∨
    (s.phase ≠ .error ∧ phaseError i s.phase = none ∧ guarded i s run = run s) := by
  unfold guarded
  by_cases hp : s.phase = .error
  · exact .inl ⟨hp, by simp [hp]⟩
  · rw [if_neg hp]
    cases hc : phaseError i s.phase with
    | none => exact .inr (.inr ⟨hp, rfl, rfl⟩)
    | some c => exact .inr (.inl ⟨c, hp, rfl, rfl⟩)

theorem phaseError_build {p : Phase} (h : phaseError .build p = none) : p = .load := by
  cases p <;> simp_all [phaseError]

theorem phaseError_gen {p : Phase} (h : phaseError .gen p = none) : p = .tree := by
  cases p <;> simp_all [phaseError]

theorem phaseError_enc {x : Byte} {p : Phase} (h : phaseError (.enc x) p = none) : p = .coded ∨ p = .encode := by
  cases p <;> simp_all [phaseError]

theorem phaseError_flush {p : Phase} (h : phaseError .flush p = none) : p = .coded ∨ p = .encode := by
  cases p <;> simp_all [phaseError]

/-- Every way a command can answer a next state. -/
theorem exec_cases {i : Instr} {s t : State} (h : exec i s = .next t) :
    (i = .nop ∧ t = s) ∨
    (i = .clear ∧ t = s.doClear) ∨
    (i ≠ .nop ∧ i ≠ .clear ∧ s.phase = .error ∧ t = { s with errMulti := true }) ∨
    (∃ c w, i ≠ .nop ∧ i ≠ .clear ∧ s.phase ≠ .error ∧ c ≠ .none ∧ t = s.raise c w) ∨
    (i = .build ∧ s.phase = .load ∧ symbolsOf s.freq ≠ [] ∧
      t = { s with
        node := (buildTree s.freq).arena
        symcount := (symbolsOf s.freq).length
        rootValid := true
        rootIdx := BitVec.ofNat 9 (rootOf (buildTree s.freq))
        phase := .tree }) ∨
    (∃ c, i = .gen ∧ s.phase = .tree ∧ codesOf s = some c ∧ t = { s with code := c, phase := .coded }) ∨
    (∃ x, i = .enc x ∧ (s.phase = .coded ∨ s.phase = .encode) ∧ codeAt s.code x ≠ [] ∧
      t = { s with bitbuf := s.bitbuf ++ codeAt s.code x, inCount := s.inCount + 1, phase := .encode }) ∨
    (i = .flush ∧ (s.phase = .coded ∨ s.phase = .encode) ∧
      t = { s with
        bitbuf := s.bitbuf ++ List.replicate (padOf s.bitbuf.length) false
        pad := padOf s.bitbuf.length
        phase := .done }) := by
  have hcause : ∀ {j : Instr} {p : Phase} {c : Cause}, phaseError j p = some c → c ≠ .none := by
    intro j p c hc
    cases j <;> cases p <;> simp_all [phaseError] <;> subst hc <;> simp
  cases i with
  | nop => simp only [exec, execNop, Host.Outcome.next.injEq] at h; exact .inl ⟨rfl, h.symm⟩
  | clear => simp only [exec, execClear, Host.Outcome.next.injEq] at h; exact .inr (.inl ⟨rfl, h.symm⟩)
  | build =>
    simp only [exec, execBuild] at h
    rcases guarded_cases .build s runBuild with ⟨hp, hg⟩ | ⟨c, hp, hc, hg⟩ | ⟨hp, hc, hg⟩ <;> rw [hg] at h
    · simp only [Host.Outcome.next.injEq] at h
      exact .inr (.inr (.inl ⟨by simp, by simp, hp, h.symm⟩))
    · simp only [Host.Outcome.next.injEq] at h
      exact .inr (.inr (.inr (.inl ⟨c, _, by simp, by simp, hp, hcause hc, h.symm⟩)))
    · unfold runBuild at h
      split at h <;> simp only [Host.Outcome.next.injEq] at h
      · exact .inr (.inr (.inr (.inl ⟨.emptyTable, _, by simp, by simp, hp, by simp, h.symm⟩)))
      · rename_i hk
        exact .inr (.inr (.inr (.inr (.inl ⟨rfl, phaseError_build hc, hk, h.symm⟩))))
  | gen =>
    simp only [exec, execGen] at h
    rcases guarded_cases .gen s runGen with ⟨hp, hg⟩ | ⟨c, hp, hc, hg⟩ | ⟨hp, hc, hg⟩ <;> rw [hg] at h
    · simp only [Host.Outcome.next.injEq] at h
      exact .inr (.inr (.inl ⟨by simp, by simp, hp, h.symm⟩))
    · simp only [Host.Outcome.next.injEq] at h
      exact .inr (.inr (.inr (.inl ⟨c, _, by simp, by simp, hp, hcause hc, h.symm⟩)))
    · unfold runGen at h
      split at h
      · simp at h
      · rename_i c hk
        simp only [Host.Outcome.next.injEq] at h
        exact .inr (.inr (.inr (.inr (.inr (.inl ⟨c, rfl, phaseError_gen hc, hk, h.symm⟩)))))
  | enc x =>
    simp only [exec, execEnc] at h
    rcases guarded_cases (.enc x) s (runEnc x) with ⟨hp, hg⟩ | ⟨c, hp, hc, hg⟩ | ⟨hp, hc, hg⟩ <;> rw [hg] at h
    · simp only [Host.Outcome.next.injEq] at h
      exact .inr (.inr (.inl ⟨by simp, by simp, hp, h.symm⟩))
    · simp only [Host.Outcome.next.injEq] at h
      exact .inr (.inr (.inr (.inl ⟨c, _, by simp, by simp, hp, hcause hc, h.symm⟩)))
    · unfold runEnc at h
      split at h <;> simp only [Host.Outcome.next.injEq] at h
      · exact .inr (.inr (.inr (.inl ⟨.missingCode, _, by simp, by simp, hp, by simp, h.symm⟩)))
      · rename_i hk
        exact .inr (.inr (.inr (.inr (.inr (.inr (.inl ⟨x, rfl, phaseError_enc hc, hk, h.symm⟩))))))
  | flush =>
    simp only [exec, execFlush] at h
    rcases guarded_cases .flush s runFlush with ⟨hp, hg⟩ | ⟨c, hp, hc, hg⟩ | ⟨hp, hc, hg⟩ <;> rw [hg] at h
    · simp only [Host.Outcome.next.injEq] at h
      exact .inr (.inr (.inl ⟨by simp, by simp, hp, h.symm⟩))
    · simp only [Host.Outcome.next.injEq] at h
      exact .inr (.inr (.inr (.inl ⟨c, _, by simp, by simp, hp, hcause hc, h.symm⟩)))
    · simp only [runFlush, Host.Outcome.next.injEq] at h
      exact .inr (.inr (.inr (.inr (.inr (.inr (.inr ⟨rfl, phaseError_flush hc, h.symm⟩))))))

/-- Every way the Engine's step can answer a next state (R69, R89). -/
theorem engineStep_cases {s t : State} (h : engineStep s = .next t) :
    (∃ w i, s.cmdPending = some w ∧ decode w = .ok i ∧ exec i { s with cmdPending := none } = .next t) ∨
    (∃ w e, s.cmdPending = some w ∧ decode w = .error e ∧ t = { s with cmdPending := none }.raise .illegalCmd w) ∨
    (s.cmdPending = none ∧ s.drainReady = true ∧ t = s.drain) ∨
    (s.cmdPending = none ∧ s.drainReady = false ∧ t = s) := by
  unfold engineStep at h
  split at h
  · rename_i w hw
    unfold execWord at h
    split at h
    · rename_i i hi; exact .inl ⟨w, i, hw, hi, h⟩
    · rename_i e he
      simp only [Host.Outcome.next.injEq] at h
      exact .inr (.inl ⟨w, e, hw, he, h.symm⟩)
  · rename_i hw
    split at h <;> rename_i hd <;> simp only [Host.Outcome.next.injEq] at h
    · exact .inr (.inr (.inl ⟨hw, hd, h.symm⟩))
    · exact .inr (.inr (.inr ⟨hw, by simpa using hd, h.symm⟩))

/-- Every way one Host operation can answer a next state (R48, R65, R66, R113). -/
theorem hostOp_cases {op : HostOp} {s t : State} (h : hostOp op s = .next t) :
    (∃ off v, op = .wr off 4 v ∧ off.toNat % 4 = 0 ∧ t = hostWrite off v s) ∨
    (∃ off name, op = .rd off 4 name ∧ off.toNat % 4 = 0 ∧ t = hostRead off name s) ∨
    (op = .wait ∧ t = (hostRead statusOff "st" s).push (waitNext (s.readWord statusOff))) ∨
    (op = .popall ∧ t = (hostRead statusOff "st" s).push (popallNext (s.readWord statusOff))) ∨
    (op = .popToOut ∧ t = (hostRead outDataOff "b" s).emit ((s.readWord outDataOff).extractLsb' 0 8)) ∨
    (op = .reset ∧ t = s.applyReset.record .reset) := by
  have hadm : ∀ {off : Offset} {size : Nat}, admitted off size = true → size = 4 ∧ off.toNat % 4 = 0 := by
    intro off size ha
    simpa [admitted] using ha
  cases op with
  | wr off size v =>
    simp only [hostOp] at h
    split at h
    · rename_i ha
      obtain ⟨rfl, hoff⟩ := hadm ha
      simp only [Host.Outcome.next.injEq] at h
      exact .inl ⟨off, v, rfl, hoff, h.symm⟩
    · simp at h
  | rd off size name =>
    simp only [hostOp] at h
    split at h
    · rename_i ha
      obtain ⟨rfl, hoff⟩ := hadm ha
      simp only [Host.Outcome.next.injEq] at h
      exact .inr (.inl ⟨off, name, rfl, hoff, h.symm⟩)
    · simp at h
  | wait =>
    simp only [hostOp, Host.Outcome.next.injEq] at h
    exact .inr (.inr (.inl ⟨rfl, h.symm⟩))
  | popall =>
    simp only [hostOp, Host.Outcome.next.injEq] at h
    exact .inr (.inr (.inr (.inl ⟨rfl, h.symm⟩)))
  | popToOut =>
    simp only [hostOp, Host.Outcome.next.injEq] at h
    exact .inr (.inr (.inr (.inr (.inl ⟨rfl, h.symm⟩))))
  | reset =>
    simp only [hostOp, Host.Outcome.next.injEq] at h
    exact .inr (.inr (.inr (.inr (.inr ⟨rfl, h.symm⟩))))

/-- The agent that moves has a step. -/
theorem nextAgent_ready (s : State) :
    (s.nextAgent = some .host → s.hostReady = true) ∧ (s.nextAgent = some .engine → s.engineReady = true) ∧
    (s.nextAgent = none → s.hostReady = false ∧ s.engineReady = false) := by
  unfold State.nextAgent
  split <;> cases s.hostReady <;> cases s.engineReady <;> simp

/-- Where the Engine has a step and the schedule does not name the Host, the Engine moves. -/
theorem nextAgent_engine {s : State} (h : s.engineReady = true) (hs : s.sched.head? ≠ some .host) :
    s.nextAgent = some .engine := by
  unfold State.nextAgent
  split
  · rename_i heq; rw [heq] at hs; simp at hs
  · rw [if_pos h]

/-- Every way the machine's step can answer a next state. -/
theorem step_cases {s t : State} (h : step s = .next t) :
    (s.nextAgent = none ∧ t = s) ∨
    (s.nextAgent = some .engine ∧ engineStep s.advance = .next t) ∨
    (∃ op rest, s.nextAgent = some .host ∧ s.host.prog = op :: rest ∧
      hostOp op { s.advance with host := { s.host with prog := rest } } = .next t) := by
  unfold step nextStep at h
  split at h
  · rename_i ha; exact .inr (.inl ⟨ha, h⟩)
  · rename_i ha
    unfold hostStep at h
    split at h
    · rename_i hp
      have hr := (nextAgent_ready s).1 ha
      rw [advance_host] at hp
      simp [State.hostReady, hp] at hr
    · rename_i op rest hp
      exact .inr (.inr ⟨op, rest, ha, hp, h⟩)
  · rename_i ha
    simp only [Host.Outcome.next.injEq] at h
    exact .inl ⟨ha, h.symm⟩

end Sys2Proof.Machine
end

