-- ==== Sys2Proof/Laws/Observation.lean ====
section
/-! SUPPORT. What the observation of a run rests on (spec/70_reset_and_hazards.md R122): which accesses pop, and what
`over` and `complete` say. -/

namespace Sys2Proof.Machine

/-- An access adds to the popped bytes what it popped. -/
@[simp] theorem popped_record (s : State) (e : Event) : (s.record e).popped = s.popped ++ (poppedBy e).toList := by
  unfold State.popped State.record
  rw [List.filterMap_append]
  cases h : poppedBy e <;> simp [h]

/-- The popped bytes are a matter of the Host's record alone. -/
theorem popped_eq {s t : State} (h : t.host.trace = s.host.trace) : t.popped = s.popped := by
  unfold State.popped; rw [h]

/-- A read of OUT_DATA pops the oldest byte, if there is one (R51). -/
theorem poppedBy_outData (s : State) :
    poppedBy (.read outDataOff (s.readWord outDataOff)) = s.fifo.head? := by
  have hr : s.readWord outDataOff = outDataWord s := by
    rcases afterRead_cases s outDataOff with ⟨hd, _, _⟩ | ⟨_, hw, _⟩ | ⟨_, ho, _, _⟩
    · exact absurd hd (by simp [isDraw, show regAt outDataOff = .outData from by decide, drawnWhilePending, drawnInError])
    · exact hw
    · exact absurd (by decide) ho
  rw [hr]
  unfold poppedBy outDataWord
  cases hf : s.fifo with
  | nil => simp
  | cons b rest =>
    have hv : ∀ x : Byte, ((0 : BitVec 23) ++ bit true ++ x).getLsbD 8 = true ∧
        ((0 : BitVec 23) ++ bit true ++ x).extractLsb' 0 8 = x := by decide
    simp only [decide_true, (hv b).1, (hv b).2, Bool.and_self, if_true, List.head?_cons]

/-- A read elsewhere pops nothing. -/
theorem poppedBy_elsewhere {off : Offset} (h : off ≠ outDataOff) (v : Word) : poppedBy (.read off v) = none := by
  simp [poppedBy, h]

/-- Over: no operation left, nothing pending, and no full byte that FIFO has room for (R122). -/
theorem over_iff (s : State) :
    s.over = true ↔ s.host.prog = [] ∧ s.cmdPending = none ∧
      (s.bitbuf.length < 8 ∨ s.params.outFifoDepth ≤ s.fifo.length) := by
  simp only [State.over, State.hostReady, State.engineReady, State.drainReady, State.pending, State.drainFlag]
  cases s.cmdPending <;> cases s.host.prog <;> simp [or_iff_not_imp_left]

/-- Complete: over with nothing left in FIFO (R122). -/
theorem complete_iff (s : State) : s.complete = true ↔ s.over = true ∧ s.fifo = [] := by
  unfold State.complete State.drainHeld
  cases s.fifo with
  | nil => simp [Params.outFifoDepth]
  | cons b rest => simp

/-- A complete run has left no full byte in BITBUF. -/
theorem complete_bitbuf {s : State} (h : s.complete = true) : s.bitbuf.length < 8 := by
  obtain ⟨ho, hf⟩ := (complete_iff s).1 h
  rcases ((over_iff s).1 ho).2.2 with h8 | h8
  · exact h8
  · simp [hf, Params.outFifoDepth] at h8

end Sys2Proof.Machine
end

