-- ==== Sys2Proof/Laws/PerInstr.lean ====
section
/-! SUPPORT. The family OpcodeRow: a command's word lies in the command's own row of the opcode map, RSVD is 0 and ARG
is the operand (spec/30_encoding.md R60 to R62). -/

namespace Sys2Proof.Laws

def OpcodeRow.Statement (i : Instr) : Prop :=
  encode i &&& maskWord i = matchWord i ∧ opcField (encode i) = opcOf i ∧ rsvdField (encode i) = 0 ∧
    argField (encode i) = argOf i

theorem OpcodeRow.nop : OpcodeRow.Statement .nop := by
  unfold OpcodeRow.Statement; decide

theorem OpcodeRow.clear : OpcodeRow.Statement .clear := by
  unfold OpcodeRow.Statement; decide

theorem OpcodeRow.build : OpcodeRow.Statement .build := by
  unfold OpcodeRow.Statement; decide

theorem OpcodeRow.gen : OpcodeRow.Statement .gen := by
  unfold OpcodeRow.Statement; decide

theorem OpcodeRow.enc (s : Byte) : OpcodeRow.Statement (.enc s) := by
  unfold OpcodeRow.Statement; revert s; decide

theorem OpcodeRow.flush : OpcodeRow.Statement .flush := by
  unfold OpcodeRow.Statement; decide

end Sys2Proof.Laws
end

