-- ==== Sys2Proof/Machine/HostText.lean ====
section
/-! DEFINITION. The written form of host programs (spec/30_encoding.md R65, R66): one operation per line, `;` starts
a comment, numbers are hexadecimal, decimal or a character in single quotes. A line is a list of characters. -/

namespace Sys2Proof.Machine

/-- A token of a line. -/
inductive Token where
  | word (w : List Char)
  | num (n : Nat)
  | text (bytes : List Byte)
  | arrow
deriving DecidableEq, Repr

/-- The single quote. -/
def quoteChar : Char := Char.ofNat 39

/-- The double quote. -/
def textChar : Char := Char.ofNat 34

/-- A character between tokens: a blank, a tab or a comma. -/
def isGap (c : Char) : Bool := c == ' ' || c == Char.ofNat 9 || c == ','

/-- A character that ends a word or a number. -/
def endsWord (c : Char) : Bool := isGap c || c == ';' || c == quoteChar || c == textChar || c == '-'

/-- The value of a digit of a number written in base 10 or 16. -/
def digitVal (base : Nat) (c : Char) : Option Nat :=
  let n := c.toNat
  let d := if 48 ≤ n ∧ n ≤ 57 then n - 48 else if 97 ≤ n ∧ n ≤ 102 then n - 87 else if 65 ≤ n ∧ n ≤ 70 then n - 55 else base
  if d < base then some d else none

/-- The number with the given digits, most significant first. -/
def digitsVal (base : Nat) : Nat → List Char → Option Nat
  | acc, [] => some acc
  | acc, c :: cs => (digitVal base c).bind fun d => digitsVal base (base * acc + d) cs

/-- A number (R65): hexadecimal after `0x`, else decimal; `none` for a word. -/
def numberOf : List Char → Option Nat
  | '0' :: 'x' :: c :: cs => digitsVal 16 0 (c :: cs)
  | [] => none
  | c :: cs => digitsVal 10 0 (c :: cs)

/-- The byte of a character (R65 "standing for its byte value"); the notation is ASCII (log 12). -/
def byteOf (c : Char) : Option Byte := if c.toNat < 128 then some (BitVec.ofNat 8 c.toNat) else none

/-- The tokens of a line up to its comment (R65); `none` when the line has no reading. A `;` inside single quotes or
inside the double quotes of a text is the character 0x3B and starts no comment (DESIGN CHOICE, log 12). The first argument bounds the
number of tokens and gaps; the line's length and one more is enough. -/
def tokens : Nat → List Char → Option (List Token)
  | 0, _ => none
  | _ + 1, [] => some []
  | fuel + 1, c :: cs =>
    if c = ';' then some []
    else if isGap c then tokens fuel cs
    else if c = quoteChar then
      match cs with
      | x :: q :: rest =>
        if q = quoteChar then (byteOf x).bind fun b => (tokens fuel rest).map (Token.num b.toNat :: ·) else none
      | _ => none
    else if c = textChar then
      match cs.dropWhile (· ≠ textChar) with
      | [] => none
      | _ :: rest =>
        ((cs.takeWhile (· ≠ textChar)).mapM byteOf).bind fun bs => (tokens fuel rest).map (Token.text bs :: ·)
    else if c = '-' then
      match cs with
      | '>' :: rest => (tokens fuel rest).map (Token.arrow :: ·)
      | _ => none
    else
      let w := c :: cs.takeWhile fun x => !endsWord x
      let t := match numberOf w with
        | some n => Token.num n
        | none => Token.word w
      (tokens fuel (cs.dropWhile fun x => !endsWord x)).map (t :: ·)

/-- An offset of the window (R42). -/
def offsetOf (n : Nat) : Option Offset := if n < 0x8000 then some (BitVec.ofNat 15 n) else none

/-- A 32-bit value. -/
def wordOf (n : Nat) : Option Word := if n < 2 ^ 32 then some (BitVec.ofNat 32 n) else none

/-- A symbol 0..255. -/
def symbolOf (n : Nat) : Option Byte := if n < 256 then some (BitVec.ofNat 8 n) else none

/-- The commands without operand, as written (R65). -/
def plainCommands : List (List Char × Instr) :=
  [(['n', 'o', 'p'], .nop), (['c', 'l', 'e', 'a', 'r'], .clear), (['b', 'u', 'i', 'l', 'd'], .build),
   (['g', 'e', 'n'], .gen), (['f', 'l', 'u', 's', 'h'], .flush)]

/-- One of `nop`, `clear`, `build`, `gen`, `enc S`, `flush` (R65). -/
def commandOf (ts : List Token) : Option Instr :=
  match ts with
  | [.word w] => plainCommands.lookup w
  | [.word w, .num s] => if w = ['e', 'n', 'c'] then (symbolOf s).map Instr.enc else none
  | _ => none

/-- `wr OFF, VAL` or `setf S, V`. -/
def lineOfNums (w : List Char) (n v : Nat) : Option Line :=
  if w = ['w', 'r'] then (offsetOf n).bind fun off => (wordOf v).map (Line.wr off)
  else if w = ['s', 'e', 't', 'f'] then (symbolOf n).bind fun x => (wordOf v).map (Line.setf x)
  else none

/-- `wait`, `popall`, `issue C` or a command. -/
def lineOfWord (w : List Char) (rest : List Token) : Option Line :=
  if w = ['i', 's', 's', 'u', 'e'] then (commandOf rest).map Line.issue
  else if w = ['w', 'a', 'i', 't'] ∧ rest = [] then some .wait
  else if w = ['p', 'o', 'p', 'a', 'l', 'l'] ∧ rest = [] then some .popall
  else (commandOf (.word w :: rest)).map Line.cmd

/-- The operation of a line that is not empty (R65, R66). -/
def lineOf (ts : List Token) : Option Line :=
  match ts with
  | [.word w, .num n, .num v] => lineOfNums w n v
  | [.word w, .num o, .arrow, .word name] =>
    if w = ['r', 'd'] then (offsetOf o).map fun off => .rd off (String.ofList name) else none
  | [.word w, .arrow, .word name] => if w = ['p', 'o', 'p'] then some (.pop (String.ofList name)) else none
  | [.word w, .text bs] => if w = ['e', 'n', 'c', 's'] then some (.encs bs) else none
  | .word w :: rest => lineOfWord w rest
  | _ => none

/-- One line of a program: no operation when it is blank or a comment. -/
def parseLine (cs : List Char) : Option (List Line) :=
  match tokens (cs.length + 1) cs with
  | none => none
  | some [] => some []
  | some ts => (lineOf ts).map fun l => [l]

/-- A host program from its lines (R65). -/
def parseProgram (lines : List (List Char)) : Option (List Line) := (lines.mapM parseLine).map List.flatten

end Sys2Proof.Machine
end

