-- ==== Sys2Proof/Tests/Slice0.lean ====
section
/-! SUPPORT. Tests. Every expected value is from spec/95_test_vectors.md or worked out by hand from the rule named; the
witnesses show states that meet the hypotheses of the statements in Certificates/Slice0/Obligations.lean. -/

namespace Sys2Proof.Tests

open Sys2Proof.Machine

/-! ### Words written out from spec/30_encoding.md R62 and R63 -/

theorem test_decode_nop : decode 0b00000000000000000000000000000000 = .ok .nop := by decide
theorem test_decode_clear : decode 0b00000001000000000000000000000000 = .ok .clear := by decide
theorem test_decode_build : decode 0b00000010000000000000000000000000 = .ok .build := by decide
theorem test_decode_gen : decode 0b00000011000000000000000000000000 = .ok .gen := by decide
theorem test_decode_enc : decode 0b00000100000000000000000001100001 = .ok (.enc 0x61) := by decide
theorem test_decode_flush : decode 0b00000101000000000000000000000000 = .ok .flush := by decide

/-- E2, E3: OPC 6 and 0xFF. -/
theorem test_illegal_opcode : decode 0x06000000 = .error .opcode ∧ decode 0xFF000000 = .error .opcode := by decide

/-- E5 to E7: a non-zero RSVD bit. -/
theorem test_illegal_rsvd : decode 0x00010000 = .error .rsvd ∧ decode 0x02000100 = .error .rsvd ∧
    decode 0x04000100 = .error .rsvd := by decide

/-- E4, E8: a non-zero ARG outside ENC. -/
theorem test_illegal_arg : decode 0x00000001 = .error .arg ∧ decode 0x01000001 = .error .arg := by decide

theorem test_table_word : decodeTableWord 32 0x04000061 = some (.enc 0x61) ∧ decodeTableWord 32 0x06000000 = none := by
  decide

/-! ### WellFormed -/

/-- R45: a write at an offset that is no multiple of 4 is refused. -/
theorem test_wf_misaligned_write : HostOp.wf (.wr 0x0402 4 1) = false := by decide

/-- R45: a byte read is refused. -/
theorem test_wf_byte_read : HostOp.wf (.rd 0x0028 1 "b") = false := by decide

/-- R45: a program with one 64-bit access is refused, one without is admitted. -/
theorem test_wf_program : progWf [.wait, .wr 0x0400 8 1] = false ∧ progWf [.wait, .wr 0x07FC 4 1] = true := by decide

theorem test_wf_instr : Instr.wf (.enc 0xFF) = true := by decide

/-! ### Small states -/

/-- LOAD, nothing pending, OUT_FIFO_DEPTH = 64. -/
def idle : State := { State.reset with cmdPending := none, params := { fifoDepthPred := 63, base := 0x40000000 } }

/-- A frequency table from its entries that are not zero. -/
def freqs (l : List (Byte × Word)) : FreqTable :=
  l.foldl (fun t e => t.set e.1.toNat e.2 e.1.isLt) (Vector.replicate 256 0)

/-- LOAD with a frequency table. -/
def loaded (t : FreqTable) : State := { idle with freq := t }

/-- TREE, as BUILD leaves it. -/
def built (t : FreqTable) : State :=
  { loaded t with
    node := (buildTree t).arena
    symcount := symbolCount t
    rootValid := true
    rootIdx := BitVec.ofNat 9 (rootOf (buildTree t))
    phase := .tree }

/-- CODED, as GEN leaves it. -/
def coded (t : FreqTable) : State :=
  { built t with code := (codesOf (built t)).getD (Vector.replicate 256 []), phase := .coded }

/-- ERROR after a FREQ write in TREE (vector X1). -/
def broken : State := idle.failed .freqLocked 0x00000584

/-- CODED with the codes of vector G1 alone, no tree. -/
def codesG1 : State :=
  { idle with phase := .coded, code := ((Vector.replicate 256 []).set 0x61 [true]).set 0x62 [false] }

/-- The next state, if there is one. -/
def nextOf : Result → Option State
  | .next s => some s
  | _ => none

/-! ### NOP, CLEAR -/

/-- A6: NOP in ERROR sets nothing. -/
theorem test_nop_in_error : (nextOf (exec .nop broken)).map errWord = some 0x00000007 := by decide

/-- A8: CLEAR out of ERROR: STATUS 0, ERR 0. -/
theorem test_clear_in_error :
    (nextOf (exec .clear broken)).map (fun t => (statusWord t, errWord t, t.errInfo)) = some (0, 0, 0) := by decide

/-! ### BUILD -/

/-- B3: a Leaf before a Leaf, and a Leaf before an Internal, at equal frequency. -/
theorem test_build_ties :
    (nextOf (exec .build (loaded (freqs [(0x41, 1), (0x42, 1), (0x43, 2)])))).map
      (fun t => (rootWord t, t.symcount, nodeWord (nodeAt t.node 256) 2, nodeWord (nodeAt t.node 257) 2))
    = some (0x80000101, 3, 0x00420041, 0x01000043) := by decide +kernel

/-- B6: the largest counts; the sum needs 33 bits. -/
theorem test_build_large :
    (nextOf (exec .build (loaded (freqs [(0, 0xFFFFFFFF), (1, 0xFFFFFFFF)])))).map
      (fun t => (nodeWord (nodeAt t.node 256) 0, nodeWord (nodeAt t.node 256) 1))
    = some (0xFFFFFFFE, 0x80000001) := by decide +kernel

/-! ### GEN -/

/-- G3: codes "0", "10", "11". -/
theorem test_gen_three :
    (nextOf (exec .gen (built (freqs [(0x41, 1), (0x42, 1), (0x43, 2)])))).map
      (fun t => (codeAt t.code 0x43, codeAt t.code 0x41, codeAt t.code 0x42))
    = some ([false], [true, false], [true, true]) := by decide +kernel

/-- G2: the lone symbol gets "0". -/
theorem test_gen_lone :
    (nextOf (exec .gen (built (freqs [(0xFF, 7)])))).map (fun t => codeAt t.code 0xFF) = some [false] := by decide +kernel

/-! ### ENC -/

/-- N7: IN_COUNT wraps. -/
theorem test_enc_count_wraps :
    (nextOf (exec (.enc 0x61) { codesG1 with inCount := 0xFFFFFFFF })).map (fun t => (t.bitbuf, t.inCount, statusWord t))
    = some ([true], 0, 0x00000030) := by decide

/-- N8: no code. -/
theorem test_enc_missing :
    (nextOf (exec (.enc 0x63) codesG1)).map (fun t => (errWord t, t.errInfo)) = some (0x3, 0x63) := by decide

/-! ### FLUSH -/

/-- T1: "110" becomes "11000000", PAD 5. -/
theorem test_flush_pads :
    (nextOf (exec .flush { codesG1 with phase := .encode, bitbuf := [true, true, false] })).map
      (fun t => (t.bitbuf, t.pad, t.phase))
    = some ([true, true, false, false, false, false, false, false], 5, .done) := by decide

/-- N5: nothing left, PAD 0 and no extra byte. -/
theorem test_flush_empty :
    (nextOf (exec .flush { codesG1 with phase := .encode })).map (fun t => (t.bitbuf, t.pad)) = some ([], 0) := by decide

/-! ### The Engine and the Host -/

/-- N6: DRAIN packs 0x6E and leaves "100". -/
def fullByte : State :=
  { codesG1 with phase := .encode, bitbuf := [false, true, true, false, true, true, true, false, true, false, false] }

theorem test_drain : (nextOf (step fullByte)).map (fun t => (t.fifo, t.bitbuf, t.outCount))
    = some ([0x6E], [true, false, false], 1) := by decide

/-- N14: DRAIN held on a full FIFO of depth 1: STATUS 0x00010335, BITBUF_LEN 12. -/
def held : State :=
  { fullByte with
    params := { fifoDepthPred := 0, base := 0 }
    fifo := [0xFF]
    bitbuf := [true, true, true, true, true, true, false, true, true, true, true, false] }

theorem test_drain_held : (statusWord held, regValue held .bitbufLen, held.engineReady) = (0x00010335, 0xC, false) := by
  decide

/-- A1: STATUS reads 3 right after reset. -/
theorem test_reset_status : statusWord { State.reset with params := idle.params } = 0x00000003 := by decide

/-- E1: ENC in LOAD raises BAD_SEQUENCE, as the first command after reset. -/
theorem test_first_command :
    (nextOf (step (State.reset.withFetchWord 32 0x04000061))).map (fun t => (errWord t, t.errInfo, t.phase))
    = some (0x4, 0x04000061, .error) := by decide

/-- B11: ILLEGAL_CMD goes before BAD_SEQUENCE. -/
theorem test_illegal_before_phase :
    (nextOf (execWord 0x02000001 { idle with phase := .tree })).map (fun t => (errWord t, t.errInfo))
    = some (0x5, 0x02000001) := by decide

/-- X2: a FREQ write while BUSY; the pending BUILD is discarded. -/
theorem test_busy_write :
    (fun t => (errWord t, t.errInfo, t.cmdPending)) (State.memWrite { idle with cmdPending := some 0x02000000 } 0x0588 7)
    = (0x6, 0x588, none) := by decide

/-- A4: CLEAR replaces a pending BUILD. -/
theorem test_clear_replaces : (State.memWrite { idle with cmdPending := some 0x02000000 } 0x0004 0x01000000).cmdPending
    = some 0x01000000 := by decide

/-- M7: FREQ[0x61] is at 0x0584. -/
theorem test_freq_write : freqAt (idle.memWrite 0x0584 2).freq 0x61 = 2 := by decide

/-- M8: OUT_DATA reads 0x1C0 and pops, then reads 0. -/
theorem test_pop : (State.readWord { idle with fifo := [0xC0] } 0x0028, (State.afterRead { idle with fifo := [0xC0] } 0x0028).fifo,
    idle.readWord 0x0028) = (0x1C0, [], 0) := by decide

/-- P1: `wait` pops while the FIFO holds a byte, and goes on while BUSY. -/
theorem test_wait :
    (nextOf (step { held with host := { idleHost with prog := [.wait] } })).map (fun t => (t.host.prog, t.host.trace))
    = some ([.popToOut, .wait], [.read 0x0008 0x00010335]) := by decide

/-- P5, R122: the byte `pop` takes is one the Host popped, and R66's OUT does not get it. -/
theorem test_pop_is_observed :
    (nextOf (step { idle with fifo := [0xFF], host := { idleHost with prog := expand [.pop "b1"] } })).map
      (fun t => ((observe t).out, t.host.out)) = some ([0xFF], []) := by decide

/-- R51, R122: a read of an empty FIFO pops nothing. -/
theorem test_empty_read_pops_nothing :
    (nextOf (step { idle with host := { idleHost with prog := [.popToOut] } })).map (fun t => (observe t).out) = some [] := by
  decide

/-- R122: over with a byte still in FIFO is not complete. -/
theorem test_over_and_complete :
    (idle.over, idle.complete, { idle with fifo := [0x6E] }.over, { idle with fifo := [0x6E] }.complete, held.over,
      held.complete) = (true, true, true, false, true, false) := by decide

/-- R65: a line of P1 with a character and a comment; a line no operation has. -/
theorem test_parse :
    parseLine ['s', 'e', 't', 'f', ' ', quoteChar, 'a', quoteChar, ',', ' ', '2', ' ', ';', 'x'] = some [.setf 0x61 2] ∧
    parseLine ['r', 'd', ' ', '0', 'x', '1', '8', ' ', '-', '>', ' ', 'k'] = some [.rd 0x0018 "k"] ∧
    parseLine ['e', 'n', 'c', ' ', '2', '5', '6'] = none := by decide

/-- R17: the ends of the ranges of the map. -/
theorem test_map_ends :
    regAt 0x03FC = .reserved ∧ regAt 0x0400 = .freq 0 ∧ regAt 0x07FC = .freq 255 ∧ regAt 0x0800 = .codeLen 0 ∧
    regAt 0x0BFC = .codeLen 255 ∧ regAt 0x0C00 = .reserved ∧ regAt 0x1FFC = .reserved ∧ regAt 0x2000 = .codeBits 0 0 ∧
    regAt 0x3FFC = .codeBits 255 7 ∧ regAt 0x4000 = .node 0 0 ∧ regAt 0x5FEC = .node 510 3 ∧ regAt 0x5FF0 = .reserved ∧
    regAt 0x7FFC = .reserved := by decide

/-! ### States of the invariant -/

theorem idle_inv : Inv idle := by
  refine ⟨?_, ?_, ?_, ?_, ?_, ?_, ?_, ?_, ?_, ?_, ?_, ?_, ?_, ?_⟩
  case refine_6 => intro x; rw [show idle.code = Vector.replicate 256 [] from rfl, codeAt_blank]; exact Nat.zero_le _
  all_goals simp [idle, State.reset, hasTree, hasCodes, Params.outFifoDepth]

theorem broken_inv : Inv broken := by
  refine ⟨?_, ?_, ?_, ?_, ?_, ?_, ?_, ?_, ?_, ?_, ?_, ?_, ?_, ?_⟩
  case refine_6 => intro x; rw [show broken.code = Vector.replicate 256 [] from rfl, codeAt_blank]; exact Nat.zero_le _
  all_goals simp [broken, State.failed, idle, State.reset, hasTree, hasCodes, beforeEncode]

theorem built_shape {t : FreqTable} (h : 1 ≤ symbolCount t) :
    TreeShape (built t).freq (built t).node (built t).symcount (built t).rootIdx.toNat := by
  have hs := buildTree_shape t h
  have hr := hs.root_valid.2
  have hk := hs.count_le
  have he : (built t).rootIdx.toNat = rootOf (buildTree t) := by
    simp only [built, BitVec.toNat_ofNat]
    exact Nat.mod_eq_of_lt (by omega)
  rw [he]; exact hs

theorem built_inv {t : FreqTable} (h : 1 ≤ symbolCount t) : Inv (built t) := by
  have hs := built_shape h
  refine ⟨?_, ?_, ?_, ?_, hs.count_le, ?_, ?_, ?_, ?_, ?_, fun _ => ⟨rfl, hs⟩, ?_, ?_, ?_⟩
  case refine_5 => intro x; rw [show (built t).code = Vector.replicate 256 [] from rfl, codeAt_blank]; exact Nat.zero_le _
  all_goals simp [built, loaded, idle, State.reset, hasCodes]

theorem coded_inv {t : FreqTable} (h : 1 ≤ symbolCount t) : Inv (coded t) := by
  have hs := built_shape h
  obtain ⟨c, hc, hm⟩ := codesOf_spec hs
  have he : (coded t).code = c := by simp only [coded, hc, Option.getD_some]
  have hm' : codesMatch (coded t) := by
    intro x
    have := hm x
    rw [he]; exact this
  refine ⟨?_, ?_, ?_, ?_, hs.count_le, fun x => (hm'.length hs x).1, ?_, ?_, ?_, ?_, fun _ => ⟨rfl, hs⟩, fun _ => hm', ?_, ?_⟩
  all_goals simp [coded, built, loaded, idle, State.reset]

/-- k = 2 (vector B1). -/
def two : FreqTable := freqs [(0x61, 2), (0x62, 1)]

/-- k = 1 (vector B2). -/
def lone : FreqTable := freqs [(0xFF, 7)]

theorem two_pos : 1 ≤ symbolCount two := by decide +kernel
theorem lone_pos : 1 ≤ symbolCount lone := by decide +kernel

/-! ### Witnesses: the hypotheses of each statement, met together -/

/-- An Engine step with a word pending. -/
def pendingState (w : Word) : State := { idle with cmdPending := some w }

/-- A Host step with an operation to do. -/
def hostState (op : HostOp) : State := { idle with host := { idleHost with prog := [op] } }

theorem witness_IllegalWordsRaiseIllegalCmd :
    isIllegal 0x06000000 = true ∧ isIllegal 0x05000000 = false ∧ isIllegal 0x04000100 = true ∧ isIllegal 0x05000001 = true ∧
    (pendingState 0x06000000).cmdPending = some 0x06000000 ∧ broken.phase = .error := by decide

theorem witness_StepRunsPendingCommand :
    (pendingState 0x04000061).cmdPending = some 0x04000061 ∧ decode 0x04000061 = .ok (.enc 0x61) ∧
    (pendingState 0x04000061).nextAgent = some .engine ∧ (pendingState 0x04000061).sched.head? ≠ some .host ∧
    (pendingState 0x04000061).host.prog = [] := by decide

theorem witness_ExecChecksInOrder :
    (pendingState 0x01000000).cmdPending = some 0x01000000 ∧ (pendingState 0x00000000).cmdPending = some 0x00000000 ∧
    broken.phase = .error ∧ isIllegal 0x02000100 = true ∧ decode 0x03000000 = .ok .gen ∧
    phaseError .gen idle.phase = some .noTree ∧ (pendingState 0x02000000).phase = .load ∧
    (∀ x, freqAt (pendingState 0x02000000).freq x = 0) ∧ (0x04000063 : Word) = 0x04000000 + (0x63 : Byte).setWidth 32 ∧
    codesG1.phase = .coded ∧ codeAt codesG1.code 0x63 = [] := by decide

theorem witness_InterleavingIsFree :
    ({ hostState .wait with cmdPending := some 0 } : State).hostReady = true ∧
    ({ hostState .wait with cmdPending := some 0 } : State).engineReady = true ∧
    (pendingState 0).hostReady = false ∧ (pendingState 0).engineReady = true ∧
    (hostState .wait).hostReady = true ∧ (hostState .wait).engineReady = false ∧
    idle.hostReady = false ∧ idle.engineReady = false := by decide

theorem witness_PhaseTable :
    idle.phase = .load ∧ (built two).phase = .tree ∧ (coded two).phase = .coded ∧
    ({ coded two with phase := .encode } : State).phase = .encode ∧ ({ coded two with phase := .done } : State).phase = .done :=
  ⟨rfl, rfl, rfl, rfl, rfl⟩

theorem witness_NopChangesNothing : (pendingState 0x00000000).execsNext 0x00000000 := by
  unfold State.execsNext; decide

theorem witness_BuildOfEmptyTable : idle.phase = .load ∧ ∀ x, freqAt idle.freq x = 0 := by decide

/-- BuildCompletes, BuildMergesLeastFirst, BuildSetsRoot, BuildMakesFullTree, FrequenciesAreExact. -/
theorem witness_build : (loaded two).phase = .load ∧ ∃ x, freqAt (loaded two).freq x ≠ 0 := by
  exact ⟨rfl, 0x61, by decide +kernel⟩

/-- The same statements and BuildSetsRoot's clause for k = 1. -/
theorem witness_build_lone : (loaded lone).phase = .load ∧ (∃ x, freqAt (loaded lone).freq x ≠ 0) ∧ symbolCount lone = 1 := by
  exact ⟨rfl, ⟨0xFF, by decide +kernel⟩, by decide +kernel⟩

/-- The clauses for k of 2 or more in BuildSetsRoot, and for m = 0 in BuildMergesLeastFirst. -/
theorem witness_build_many : 2 ≤ symbolCount two := by decide +kernel

/-- GenCompletes and CodeLengths. -/
theorem witness_GenCompletes : Inv (built two) ∧ (built two).phase = .tree := ⟨built_inv two_pos, rfl⟩

theorem witness_GenOfLoneSymbol :
    (built lone).phase = .tree ∧ (built lone).symcount = 1 ∧ (built lone).rootIdx.toNat < 256 := by
  exact ⟨rfl, by decide +kernel, by decide +kernel⟩

/-- CodesArePrefixFree (with x = y and nothing after), KraftSum's clause for k of 2 or more, CodesReadBackUniquely. -/
theorem witness_codes :
    Inv (coded two) ∧ hasCodes (coded two).phase = true ∧ codeAt (coded two).code 0x61 ≠ [] ∧
    codeAt (coded two).code 0x62 ≠ [] := by
  exact ⟨coded_inv two_pos, rfl, by decide +kernel, by decide +kernel⟩

theorem witness_KraftSum : Inv (coded lone) ∧ hasCodes (coded lone).phase = true ∧ (coded lone).symcount = 1 := by
  exact ⟨coded_inv lone_pos, rfl, by decide +kernel⟩

theorem witness_CodesReadBackUniquely :
    ∀ x ∈ [(0x61 : Byte), 0x62, 0x61], codeAt (coded two).code x ≠ [] := by decide +kernel

theorem witness_EncAppendsCode : codesG1.phase = .coded ∧ codeAt codesG1.code 0x61 ≠ [] := by decide

theorem witness_EncOfUncodedSymbol :
    Inv (coded two) ∧ (coded two).phase = .coded ∧ codeAt (coded two).code 0x63 = [] := by
  exact ⟨coded_inv two_pos, rfl, by decide +kernel⟩

theorem witness_FlushPads :
    codesG1.phase = .coded ∧ codesG1.bitbuf = [] ∧
    ({ codesG1 with bitbuf := [true, true, true, false, true, true, false] } : State).bitbuf.length = 7 ∧
    ({ codesG1 with bitbuf := [true] } : State).bitbuf ≠ [] := by decide

theorem witness_FlushWithoutEnc : Inv (coded two) ∧ (coded two).phase = .coded := ⟨coded_inv two_pos, rfl⟩

theorem witness_DrainPacksOneByte :
    fullByte.cmdPending = none ∧ 8 ≤ fullByte.bitbuf.length ∧ fullByte.fifo.length < fullByte.params.outFifoDepth ∧
    held.cmdPending = none ∧ 8 ≤ held.bitbuf.length ∧ held.fifo.length = held.params.outFifoDepth := by decide

theorem witness_DrainPacksOneByte_error : Inv broken ∧ broken.phase = .error ∧ broken.cmdPending = none :=
  ⟨broken_inv, rfl, rfl⟩

/-- A state of the invariant keeps it with another word pending over an empty BITBUF. -/
theorem pending_inv {s : State} (h : Inv s) (hb : s.bitbuf = []) (w : Word) : Inv { s with cmdPending := some w } :=
  ⟨by intro _ _ _; simp [hb], h.2, h.3, h.4, h.5, h.6, h.7, h.8, h.9, h.10, h.11, h.12, h.13, h.14⟩

/-- A state of the invariant keeps it with another Host. -/
theorem host_inv {s : State} (h : Inv s) (x : HostState) : Inv { s with host := x } :=
  ⟨h.1, h.2, h.3, h.4, h.5, h.6, h.7, h.8, h.9, h.10, h.11, h.12, h.13, h.14⟩

/-- StreamOfCodes, TablesChangeByCommandOnly, PhasesGoForward, CountersCount, InvariantKeptByStep and
ConfigurationIsFixed: a step that is no new run. -/
theorem witness_step :
    Inv (pendingState 0) ∧ step (pendingState 0) = .next idle ∧ ¬(pendingState 0).clearsNext ∧ idle.phase ≠ .error := by
  refine ⟨pending_inv idle_inv rfl 0, rfl, ?_, by decide⟩
  unfold State.clearsNext; decide

theorem witness_StreamOfCodes_enc :
    Inv { coded two with cmdPending := some 0x04000061 } ∧
    ({ coded two with cmdPending := some 0x04000061 } : State).execsNext (0x04000000 + (0x61 : Byte).setWidth 32) :=
  ⟨pending_inv (coded_inv two_pos) rfl _, by unfold State.execsNext; exact ⟨rfl, rfl⟩⟩

theorem witness_StreamOfCodes_flush :
    Inv { coded two with cmdPending := some 0x05000000 } ∧
    ({ coded two with cmdPending := some 0x05000000 } : State).execsNext 0x05000000 :=
  ⟨pending_inv (coded_inv two_pos) rfl _, by unfold State.execsNext; exact ⟨rfl, rfl⟩⟩

/-- ENCODE with a packed byte waiting and a Host that pops it, over the tables of a state. -/
def popOf (s : State) : State :=
  { s with phase := .encode, fifo := [0x6E], host := { idleHost with prog := [.rd 0x0028 4 "b"] } }

theorem popOf_inv {s : State} (h : Inv s) (hp : s.phase = .coded) (hc : s.cmdPending = none)
    (hd : 1 ≤ s.params.outFifoDepth) : Inv (popOf s) := by
  have hn := h.13 (by rw [hp]; rfl)
  have he : s.errCause = .none := by
    by_contra hx
    have := h.7.2 hx
    rw [hp] at this
    cases this
  refine ⟨?_, ?_, hd, h.4, h.5, h.6, ?_, h.8, ?_, ?_, fun _ => h.11 (by rw [hp]; rfl), fun _ => h.12 (by rw [hp]; rfl), ?_, ?_⟩
  · intro w hw; rw [show (popOf s).cmdPending = s.cmdPending from rfl, hc] at hw; cases hw
  · show s.bitbuf.length ≤ 262
    rw [hn.1]; decide
  · simp [popOf, he]
  · intro hx; cases hx
  · intro hx; cases hx
  · intro hx; cases hx
  · intro _ _
    exact h.14 (by rw [hp]; decide) (by rw [hp]; decide)

def popState : State := popOf (coded two)

theorem popState_inv : Inv popState := popOf_inv (coded_inv two_pos) rfl rfl (by show 1 ≤ 63 + 1; decide)

theorem witness_StreamOfCodes_pop : Inv popState ∧ popState.popsNext ∧ popState.fifo = [0x6E] := by
  refine ⟨popState_inv, ?_, rfl⟩
  unfold State.popsNext
  exact ⟨rfl, .inl ⟨"b", rfl⟩⟩

theorem witness_ErrorsArePrecise :
    idle.phase ≠ .error ∧ exec .gen idle = .next (idle.failed .noTree 0x03000000) ∧
    (idle.failed .noTree 0x03000000).phase = .error := ⟨by decide, rfl, rfl⟩

theorem witness_ErrorPhaseSetsMultiOnly :
    broken.phase = .error ∧ Inv { broken with cmdPending := some 0x03000000 } ∧
    ({ broken with cmdPending := some 0x03000000 } : State).busy = true ∧ isIllegal 0xFF000000 = true :=
  ⟨rfl, pending_inv broken_inv rfl _, rfl, by decide⟩

/-- ERROR with CLEAR pending. -/
def leaving : State := { broken with cmdPending := some 0x01000000 }

theorem witness_OnlyClearOrResetLeavesError :
    leaving.phase = .error ∧ step leaving = .next broken.doClear ∧ broken.doClear.phase ≠ .error := by
  exact ⟨rfl, rfl, by decide⟩

theorem witness_CountersCount_clear : leaving.clearsNext := by unfold State.clearsNext; decide

theorem witness_FirstErrorIsKept :
    Inv { broken with cmdPending := some 0x03000000 } ∧ broken.errCause ≠ .none ∧
    step { broken with cmdPending := some 0x03000000 } = .next broken.multi ∧
    ¬({ broken with cmdPending := some 0x03000000 } : State).clearsNext := by
  refine ⟨pending_inv broken_inv rfl _, by decide, rfl, ?_⟩
  unfold State.clearsNext; decide

theorem witness_CmdWriteIsAccepted :
    idle.busy = false ∧ (pendingState 0).busy = true ∧ (pendingState 0).phase ≠ .error ∧
    ({ broken with cmdPending := some 0 } : State).busy = true ∧ ({ broken with cmdPending := some 0 } : State).phase = .error := by
  decide

theorem witness_FreqWriteRule :
    (0x0584 : Offset).toNat = 0x0400 + 4 * (0x61 : Byte).toNat ∧ (0x07FC : Offset).toNat = 0x0400 + 4 * (0xFF : Byte).toNat ∧
    (pendingState 0).busy = true ∧ (pendingState 0).phase ≠ .error ∧ (built two).busy = false ∧
    (built two).phase ≠ .load ∧ broken.phase = .error ∧ idle.busy = false ∧ idle.phase = .load := by
  exact ⟨by decide, by decide, by decide, by decide, rfl, by simp [built], by decide, by decide, by decide⟩

theorem witness_OutDataReadPops : popState.fifo = [0x6E] ∧ idle.fifo = [] := ⟨rfl, rfl⟩

theorem witness_OnlyThreeSideEffects :
    (0x0030 : Offset).toNat % 4 = 0 ∧ (0x0030 : Offset) ≠ 0x0004 ∧ ¬(0x0400 ≤ (0x0030 : Offset).toNat ∧ (0x0030 : Offset).toNat ≤ 0x07FC) ∧
    isDraw idle (regAt 0x0030) = false ∧ isDraw (pendingState 0) (regAt 0x0030) = true := by decide

theorem witness_ReadsInFlightAreDraws :
    (0x5FEC : Offset).toNat % 4 = 0 ∧ isTableOffset (0x5FEC : Offset).toNat ∧ isTableOffset (0x0014 : Offset).toNat ∧
    isTableOffset (0x0400 : Offset).toNat ∧ ¬isTableOffset (0x0028 : Offset).toNat ∧ ¬isTableOffset (0x0C00 : Offset).toNat ∧
    (pendingState 0).pending = true ∧ broken.phase = .error ∧ idle.pending = false ∧ idle.phase ≠ .error ∧
    held.pending = false ∧ held.bitbuf.length ≤ 262 := by
  unfold isTableOffset; decide

theorem witness_ReadsInFlightAreDraws_error : Inv broken ∧ broken.phase = .error ∧ broken.pending = false :=
  ⟨broken_inv, rfl, rfl⟩

theorem witness_RegisterMap :
    (0x3FFC : Offset).toNat = 0x2000 + 32 * (0xFF : Byte).toNat + 4 * (7 : Fin 8).val ∧
    (0x5FEC : Offset).toNat = 0x4000 + 16 * 510 + 4 * (3 : Fin 4).val ∧ (0x0BFC : Offset).toNat = 0x0800 + 4 * (0xFF : Byte).toNat ∧
    (0x0034 : Offset).toNat % 4 = 0 ∧ 0x0034 ≤ (0x0034 : Offset).toNat ∧ 0x5FF0 ≤ (0x7FFC : Offset).toNat := by decide

theorem witness_StatusLayout : held.fifo.length ≤ held.params.outFifoDepth := by decide

theorem witness_ErrLayout : Inv idle ∧ idle.errCause = .none := ⟨idle_inv, rfl⟩

theorem witness_RegistersReadTheirValues :
    Inv (coded two) ∧ (coded two).pending = false ∧ (coded two).phase ≠ .error ∧
    (0x0400 : Offset).toNat = 0x0400 + 4 * (0 : Byte).toNat ∧ (0x07FC : Offset).toNat = 0x0400 + 4 * (0xFF : Byte).toNat ∧
    (0x03FC : Offset).toNat % 4 = 0 ∧ 0x0034 ≤ (0x03FC : Offset).toNat ∧ 0x0C00 ≤ (0x1FFC : Offset).toNat ∧
    0x5FF0 ≤ (0x5FF0 : Offset).toNat :=
  ⟨coded_inv two_pos, rfl, by simp [coded], by decide⟩

theorem witness_NodeLayout :
    (built two).pending = false ∧ (built two).phase ≠ .error ∧
    (0x5008 : Offset).toNat = 0x4000 + 16 * 256 + 4 * (2 : Fin 4).val ∧ Inv (built two) ∧
    (nodeAt (built two).node 0x61).leaf = true :=
  ⟨rfl, by simp [built], by decide, built_inv two_pos, by decide +kernel⟩

theorem witness_CodeLayout :
    codesG1.pending = false ∧ codesG1.phase ≠ .error ∧ (codeAt codesG1.code 0x61).length ≤ 255 ∧
    (0x0984 : Offset).toNat = 0x0800 + 4 * (0x61 : Byte).toNat ∧
    (0x2C20 : Offset).toNat = 0x2000 + 32 * (0x61 : Byte).toNat + 4 * (0 : Fin 8).val ∧
    32 * (0 : Fin 8).val + 0 < (codeAt codesG1.code 0x61).length ∧ (codeAt codesG1.code 0x61).length ≤ 32 * (0 : Fin 8).val + 1 := by
  decide

theorem witness_UnadmittedAccessIsRefused : (0x0402 : Offset).toNat % 4 ≠ 0 ∧ HostOp.wf (.wr 0x0400 4 1) = true := by decide

/-- HostAccessSteps, WaitPollsStatus, PopallPollsStatus, PopAppendsToOut, ResetInput. -/
theorem witness_host_step :
    (hostState (.wr 0x0584 4 2)).nextAgent = some .host ∧ (hostState (.rd 0x0018 4 "root")).nextAgent = some .host ∧
    (hostState .wait).nextAgent = some .host ∧ (hostState .popall).nextAgent = some .host ∧
    (hostState .popToOut).nextAgent = some .host ∧ (hostState .reset).nextAgent = some .host ∧
    (0x0584 : Offset).toNat % 4 = 0 ∧ (hostState .wait).fifo = [] ∧ (hostState .wait).busy = false := by decide

/-- WaitPollsStatus and PopallPollsStatus with OUT_VALID and BUSY. -/
theorem witness_host_poll :
    ({ held with host := { idleHost with prog := [.wait] } } : State).nextAgent = some .host ∧ held.fifo ≠ [] ∧ held.busy = true := by
  decide

theorem witness_PollingSynchronises : (idle.readWord 0x0008).getLsbD 0 = false := by decide

theorem witness_AdmittedRunsNeverStop :
    Inv { idle with host := { idleHost with prog := [.wait, .wr 0x0400 4 1] } } ∧ progWf [.wait, .wr 0x0400 4 1] = true :=
  ⟨host_inv idle_inv _, by decide⟩

theorem witness_EngineFinishes : Inv (pendingState 0x02000000) ∧ (pendingState 0x02000000).host.prog = [] :=
  ⟨pending_inv idle_inv rfl _, rfl⟩

end Sys2Proof.Tests
end

section
/-! SUPPORT. Proofs of the statements of spec/00_scope.md: the two agents, the exact weights, the window on the bus, the
configuration, the reads that are draws, and the reset. -/

namespace Sys2Proof.Machine

/-! ### Who moves (R48, R55) -/

/-- A step is the one of the agent that `nextAgent` names, on the state with one entry of the schedule used up. -/
theorem step_of_host {s : State} (h : s.nextAgent = some .host) : step s = hostStep s.advance := by
  unfold step nextStep; rw [h]

theorem step_of_engine {s : State} (h : s.nextAgent = some .engine) : step s = engineStep s.advance := by
  unfold step nextStep; rw [h]

theorem step_of_none {s : State} (h : s.nextAgent = none) : step s = .next s := by
  unfold step nextStep; rw [h]

/-- Where the Host has a step and the schedule names it, the Host moves. -/
theorem nextAgent_host_of_sched {s : State} {rest : List Agent} (h : s.hostReady = true) (hs : s.sched = .host :: rest) :
    s.nextAgent = some .host := by
  unfold State.nextAgent; rw [hs]; exact if_pos h

theorem nextAgent_host_of_alone {s : State} (hh : s.hostReady = true) (he : s.engineReady = false) :
    s.nextAgent = some .host := by
  unfold State.nextAgent; split <;> simp [hh, he]

theorem nextAgent_engine_of_alone {s : State} (hh : s.hostReady = false) (he : s.engineReady = true) :
    s.nextAgent = some .engine := by
  unfold State.nextAgent; split <;> simp [hh, he]

theorem nextAgent_none {s : State} (hh : s.hostReady = false) (he : s.engineReady = false) : s.nextAgent = none := by
  unfold State.nextAgent; split <;> simp [hh, he]

/-- Settles O6: one equation of `step` per agent, and who moves in each of the four cases of readiness. -/
theorem interleavingIsFree : Obligations.InterleavingIsFree := by
  unfold Obligations.InterleavingIsFree
  intro s rest
  refine ⟨fun hh he => ⟨?_, ?_⟩, fun hh he => ?_, fun hh he => ?_, fun hh he => ?_⟩
  · exact step_of_host (s := { s with sched := .host :: rest }) (nextAgent_host_of_sched hh rfl)
  · exact step_of_engine (s := { s with sched := .engine :: rest }) (nextAgent_engine he (by simp))
  · exact step_of_engine (nextAgent_engine_of_alone hh he)
  · exact step_of_host (nextAgent_host_of_alone hh he)
  · exact step_of_none (nextAgent_none hh he)

/-! ### The weights of the tree (R79) -/

/-- 256 frequencies of 32 bits: the bound that keeps every sum below 2^40 (R79). -/
theorem totalWeight_le (t : FreqTable) : totalWeight t ≤ 2 ^ 40 - 2 ^ 8 := by
  have h := List.sum_le_card_nsmul (t.toList.map BitVec.toNat) (2 ^ 32 - 1) (by
    intro v hv
    obtain ⟨w, _, rfl⟩ := List.mem_map.mp hv
    have := w.isLt
    omega)
  simp only [List.length_map, Vector.length_toList, smul_eq_mul] at h
  calc totalWeight t ≤ 256 * (2 ^ 32 - 1) := h
    _ = 2 ^ 40 - 2 ^ 8 := by norm_num

theorem symbolsOf_ne_nil {t : FreqTable} {x : Byte} (h : freqAt t x ≠ 0) : symbolsOf t ≠ [] :=
  List.ne_nil_of_mem ((mem_symbolsOf t x.toNat).mpr ⟨x.isLt, by rwa [freqAt_eq_getD]⟩)

theorem symbolCount_pos {t : FreqTable} (h : symbolsOf t ≠ []) : 1 ≤ symbolCount t := by
  rw [← symbolsOf_length]; exact List.length_pos_of_ne_nil h

/-- A slot that is not VALID is all zeros. -/
theorem TreeShape.empty_of_invalid {t : FreqTable} {a : Arena} {k root n : Nat} (h : TreeShape t a k root)
    (hv : (nodeAt a n).valid ≠ true) : nodeAt a n = emptyNode := by
  by_cases hn : n < 256
  · rw [h.leaf hn] at hv ⊢
    have hz : freqAt t (BitVec.ofNat 8 n) = 0 := not_not.mp fun hne => hv ((leafNode_valid _).mpr hne)
    rw [hz]; rfl
  · obtain ⟨m, rfl⟩ : ∃ m, n = 256 + m := ⟨n - 256, by omega⟩
    have hm : ¬m + 1 < k := fun hm => hv (h.merges m hm).valid
    exact h.unused m (by omega)

/-- A child's slot lies before its parent's, and its F is at most its parent's. -/
theorem MergeOk.child_le {a : Arena} {c : Nat} (h : MergeOk a c) (b : Bool) :
    (if b then rightOf a c else leftOf a c) < c ∧
      freqOf a (if b then rightOf a c else leftOf a c) ≤ freqOf a c := by
  have hsum := h.sum
  obtain ⟨⟨-, hl, -⟩, -⟩ := h.left
  obtain ⟨⟨⟨-, hr, -⟩, -⟩, -⟩ := h.right
  cases b
  · exact ⟨hl, by rw [hsum]; exact Nat.le_add_right _ _⟩
  · exact ⟨hr, by rw [hsum]; exact Nat.le_add_left _ _⟩

/-- No F is more than the root's, going from a node to its parent until the root. -/
theorem TreeShape.freqOf_le_root {t : FreqTable} {a : Arena} {k root : Nat} (h : TreeShape t a k root) (n : Nat) :
    freqOf a n ≤ freqOf a root := by
  by_cases hv : (nodeAt a n).valid = true
  · by_cases hn : n = root
    · rw [hn]
    · obtain ⟨c, b, hc, hck, hcv, rfl⟩ := h.parent_exists hv hn
      obtain ⟨hlt, hle⟩ := (h.inner hcv hc).2.child_le b
      exact hle.trans (h.freqOf_le_root c)
  · rw [freqOf, h.empty_of_invalid hv]
    exact Nat.zero_le _
termination_by 511 - n
decreasing_by
  have := h.count_le
  omega

/-- BUILD in LOAD over a table that is not empty makes the tree (R80). -/
theorem exec_build {s : State} (hp : s.phase = .load) (hk : symbolsOf s.freq ≠ []) :
    exec .build s = .next { s with
      node := (buildTree s.freq).arena
      symcount := (symbolsOf s.freq).length
      rootValid := true
      rootIdx := BitVec.ofNat 9 (rootOf (buildTree s.freq))
      phase := .tree } := by
  simp [exec, execBuild, guarded, hp, phaseError, runBuild, hk]

/-- Settles O15: the root's F is the sum of Q's weights, which every merge keeps, and no F is more than the root's. -/
theorem frequenciesAreExact : Obligations.FrequenciesAreExact := by
  unfold Obligations.FrequenciesAreExact
  rintro s hp ⟨x, hx⟩
  have hk := symbolsOf_ne_nil hx
  have hshape := buildTree_shape s.freq (symbolCount_pos hk)
  have hweight := buildTree_weight s.freq (symbolCount_pos hk)
  have hroot : (BitVec.ofNat 9 (rootOf (buildTree s.freq))).toNat = rootOf (buildTree s.freq) := by
    have := hshape.root_valid.2
    have := hshape.count_le
    exact Nat.mod_eq_of_lt (by omega)
  refine ⟨_, exec_build hp hk, ?_, totalWeight_le s.freq, fun n => ?_⟩
  · rw [hroot, hweight]
  · rw [← hweight]; exact hshape.freqOf_le_root n

/-! ### The window on the bus (R42, R43) -/

theorem busOffset_eq_some (p : Params) (addr : Nat) (off : Offset) :
    busOffset p addr = some off ↔ addr = p.base + off.toNat := by
  have hoff := off.isLt
  unfold busOffset
  split
  · rw [Option.some_inj, ← BitVec.toNat_inj, BitVec.toNat_ofNat, Nat.mod_eq_of_lt (by omega)]
    omega
  · simp only [reduceCtorEq, false_iff]; omega

theorem busOffset_eq_none (p : Params) (addr : Nat) :
    busOffset p addr = none ↔ addr < p.base ∨ p.base + 0x8000 ≤ addr := by
  unfold busOffset
  split
  · simp only [reduceCtorEq, false_iff]; omega
  · simp only [true_iff]; omega

/-- Settles O50, from the two equivalences above. -/
theorem windowOnTheBus : Obligations.WindowOnTheBus := by
  unfold Obligations.WindowOnTheBus
  exact fun p addr => ⟨busOffset_eq_some p addr, busOffset_eq_none p addr⟩

/-! ### The configuration (R6) -/

theorem exec_params {i : Instr} {s t : State} (h : exec i s = .next t) : t.params = s.params := by
  rcases exec_cases h with ⟨-, rfl⟩ | ⟨-, rfl⟩ | ⟨-, -, -, rfl⟩ | ⟨_, _, -, -, -, -, rfl⟩ | ⟨-, -, -, rfl⟩ |
    ⟨_, -, -, -, rfl⟩ | ⟨_, -, -, -, rfl⟩ | ⟨-, -, rfl⟩ <;> simp

theorem engineStep_params {s t : State} (h : engineStep s = .next t) : t.params = s.params := by
  rcases engineStep_cases h with ⟨_, _, -, -, he⟩ | ⟨_, _, -, -, rfl⟩ | ⟨-, -, rfl⟩ | ⟨-, -, rfl⟩
  · exact (exec_params he).trans rfl
  · simp
  · simp
  · rfl

@[simp] theorem hostWrite_params (off : Offset) (v : Word) (s : State) : (hostWrite off v s).params = s.params := by
  simp [hostWrite]

@[simp] theorem hostRead_params (off : Offset) (name : String) (s : State) : (hostRead off name s).params = s.params := by
  simp [hostRead]

theorem hostOp_params {op : HostOp} {s t : State} (h : hostOp op s = .next t) : t.params = s.params := by
  rcases hostOp_cases h with ⟨_, _, -, -, rfl⟩ | ⟨_, _, -, -, rfl⟩ | ⟨-, rfl⟩ | ⟨-, rfl⟩ | ⟨-, rfl⟩ | ⟨-, rfl⟩ <;>
    simp

/-- Settles O57: each agent's step keeps the configuration. -/
theorem configurationIsFixed : Obligations.ConfigurationIsFixed := by
  unfold Obligations.ConfigurationIsFixed
  intro s t h
  rcases step_cases h with ⟨-, rfl⟩ | ⟨-, he⟩ | ⟨op, rest, -, -, ho⟩
  · rfl
  · exact (engineStep_params he).trans (advance_params s)
  · exact (hostOp_params ho).trans (advance_params s)

/-! ### The register map by ranges (R17), and which reads are draws (R40) -/

/-- Below 0x0400 the map is `controlReg`, above it one array per range. -/
theorem regAt_cases (off : Offset) :
    (off.toNat < 0x0400 ∧ regAt off = controlReg off.toNat) ∨
    (0x0400 ≤ off.toNat ∧ off.toNat < 0x0800 ∧ ∃ x, regAt off = .freq x) ∨
    (0x0800 ≤ off.toNat ∧ off.toNat < 0x0C00 ∧ ∃ x, regAt off = .codeLen x) ∨
    (0x2000 ≤ off.toNat ∧ off.toNat < 0x4000 ∧ ∃ x j, regAt off = .codeBits x j) ∨
    (0x4000 ≤ off.toNat ∧ off.toNat < 0x5FF0 ∧ ∃ n w, regAt off = .node n w) ∨
    ((0x0C00 ≤ off.toNat ∧ off.toNat < 0x2000 ∨ 0x5FF0 ≤ off.toNat) ∧ regAt off = .reserved) := by
  unfold regAt
  by_cases h1 : off.toNat < 0x0400
  · exact .inl ⟨h1, by simp [h1]⟩
  by_cases h2 : off.toNat < 0x0800
  · exact .inr (.inl ⟨by omega, h2, by simp [h1, h2]⟩)
  by_cases h3 : off.toNat < 0x0C00
  · exact .inr (.inr (.inl ⟨by omega, h3, by simp [h1, h2, h3]⟩))
  by_cases h4 : off.toNat < 0x2000
  · exact .inr (.inr (.inr (.inr (.inr ⟨by omega, by simp [h1, h2, h3, h4]⟩))))
  by_cases h5 : off.toNat < 0x4000
  · exact .inr (.inr (.inr (.inl ⟨by omega, h5, by simp [h1, h2, h3, h4, h5]⟩)))
  by_cases h6 : off.toNat < 0x5FF0
  · exact .inr (.inr (.inr (.inr (.inl ⟨by omega, h6, by simp [h1, h2, h3, h4, h5, h6]⟩))))
  · exact .inr (.inr (.inr (.inr (.inr ⟨by omega, by simp [h1, h2, h3, h4, h5, h6]⟩))))

/-- The offset that the map below 0x0400 gives a register, the inverse of `controlReg`. -/
def controlOffset : Reg → Nat
  | .cmd => 0x0004
  | .status => 0x0008
  | .err => 0x000C
  | .errInfo => 0x0010
  | .symcount => 0x0014
  | .root => 0x0018
  | .pad => 0x001C
  | .inCount => 0x0020
  | .outCount => 0x0024
  | .outData => 0x0028
  | .param => 0x002C
  | .bitbufLen => 0x0030
  | .id | .freq _ | .codeLen _ | .codeBits _ _ | .node _ _ | .reserved => 0x0000

theorem controlOffset_controlReg {n : Nat} (h : controlReg n ≠ .reserved) : controlOffset (controlReg n) = n := by
  unfold controlReg at *
  split at h
  case h_14 => exact absurd rfl h
  all_goals rfl

/-- A register below 0x0400 that is not reserved has no second offset (R17). -/
theorem eq_of_regAt_eq_controlReg {off c : Offset} (h : regAt off = controlReg c.toNat)
    (hc : controlReg c.toNat ≠ .reserved) : off = c := by
  have harray : (∀ x, controlReg c.toNat ≠ .freq x) ∧ (∀ x, controlReg c.toNat ≠ .codeLen x) ∧
      (∀ x j, controlReg c.toNat ≠ .codeBits x j) ∧ ∀ n w, controlReg c.toNat ≠ .node n w := by
    unfold controlReg; split <;> simp
  obtain ⟨hfreq, hlen, hbits, hnode⟩ := harray
  rcases regAt_cases off with ⟨-, hr⟩ | ⟨-, -, x, hr⟩ | ⟨-, -, x, hr⟩ | ⟨-, -, x, j, hr⟩ | ⟨-, -, n, w, hr⟩ | ⟨-, hr⟩ <;>
    rw [hr] at h
  · have hoff : controlReg off.toNat ≠ .reserved := h ▸ hc
    refine BitVec.eq_of_toNat_eq ?_
    rw [← controlOffset_controlReg hoff, h, controlOffset_controlReg hc]
  · exact absurd h.symm (hfreq x)
  · exact absurd h.symm (hlen x)
  · exact absurd h.symm (hbits x j)
  · exact absurd h.symm (hnode n w)
  · exact absurd h.symm hc

theorem regAt_eq_bitbufLen (off : Offset) : regAt off = .bitbufLen ↔ off = 0x0030 :=
  ⟨fun h => eq_of_regAt_eq_controlReg (c := 0x0030) h (by decide), fun h => h ▸ rfl⟩

theorem drawnInError_controlReg {n : Nat} (ha : n % 4 = 0) :
    drawnInError (controlReg n) = true ↔ 0x0014 ≤ n ∧ n ≤ 0x0024 := by
  unfold controlReg
  split
  case h_14 =>
    simp only [imp_false, drawnInError, Bool.false_eq_true, false_iff] at *
    omega
  all_goals simp [drawnInError]

/-- The registers that are draws in ERROR are the tables and counters (R40 case 2). -/
theorem drawnInError_regAt {off : Offset} (ha : off.toNat % 4 = 0) :
    drawnInError (regAt off) = true ↔ isTableOffset off.toNat := by
  unfold isTableOffset
  rcases regAt_cases off with ⟨h, hr⟩ | ⟨h, h', x, hr⟩ | ⟨h, h', x, hr⟩ | ⟨h, h', x, j, hr⟩ | ⟨h, h', n, w, hr⟩ | ⟨h, hr⟩ <;>
    rw [hr]
  · rw [drawnInError_controlReg ha]; omega
  all_goals simp only [drawnInError, Bool.false_eq_true, true_iff, false_iff]; omega

/-- While a command is pending BITBUF_LEN is a draw, too (R40 case 1). -/
theorem drawnWhilePending_iff (r : Reg) : drawnWhilePending r = true ↔ drawnInError r = true ∨ r = .bitbufLen := by
  cases r <;> simp [drawnWhilePending, drawnInError]

/-- When a read is a draw, by offset (R40). -/
theorem isDraw_regAt (s : State) {off : Offset} (ha : off.toNat % 4 = 0) :
    isDraw s (regAt off) = true ↔
      (s.pending = true ∧ (isTableOffset off.toNat ∨ off = 0x0030)) ∨ (s.phase = .error ∧ isTableOffset off.toNat) := by
  simp only [isDraw, Bool.or_eq_true, Bool.and_eq_true, decide_eq_true_eq, drawnWhilePending_iff, drawnInError_regAt ha,
    regAt_eq_bitbufLen]

theorem read_of_isDraw {s : State} {off : Offset} (h : isDraw s (regAt off) = true) :
    s.readWord off = Config.draw s.draws ∧ s.afterRead off = { s with draws := s.draws + 1 } := by
  unfold State.readWord State.afterRead
  exact ⟨if_pos h, if_pos h⟩

theorem readWord_of_not_isDraw {s : State} {off : Offset} (h : ¬isDraw s (regAt off) = true) :
    s.readWord off = regValue s (regAt off) := by
  unfold State.readWord
  exact if_neg h

/-- With nothing pending BITBUF_LEN is exact in every phase, ERROR included (R40 case 2). -/
theorem readWord_bitbufLen {s : State} (hp : s.pending = false) :
    s.readWord 0x0030 = (0 : BitVec 23) ++ BitVec.ofNat 9 s.bitbuf.length := by
  rw [readWord_of_not_isDraw]
  · rfl
  · have ht : ¬isTableOffset (0x0030 : Offset).toNat := by unfold isTableOffset; decide
    simp only [isDraw_regAt s (show (0x0030 : Offset).toNat % 4 = 0 from rfl), hp, ht]
    simp

/-- A number of at most 9 bits in the low bits of a register. -/
theorem toNat_append_ofNat {n : Nat} (h : n < 512) : ((0 : BitVec 23) ++ BitVec.ofNat 9 n).toNat = n := by
  rw [BitVec.toNat_append]
  simp
  omega

/-- Settles O37: `isDraw_regAt` says by offset which reads are draws. -/
theorem readsInFlightAreDraws : Obligations.ReadsInFlightAreDraws := by
  unfold Obligations.ReadsInFlightAreDraws
  intro s off ha
  have hdraw := isDraw_regAt s ha
  refine ⟨fun hp hoff => ?_, fun he ht => ?_, fun hp he => ?_, fun ht hoff => ?_, fun hoff hp hlen => ?_,
    fun hinv he hp hoff => ?_⟩
  · exact read_of_isDraw (hdraw.mpr (.inl ⟨hp, hoff⟩))
  · exact read_of_isDraw (hdraw.mpr (.inr ⟨he, ht⟩))
  · refine readWord_of_not_isDraw fun h => ?_
    rcases hdraw.mp h with ⟨hp', -⟩ | ⟨he', -⟩
    · simp [hp] at hp'
    · exact he he'
  · refine readWord_of_not_isDraw fun h => ?_
    rcases hdraw.mp h with ⟨-, ht' | hoff'⟩ | ⟨-, ht'⟩
    · exact ht ht'
    · exact hoff hoff'
    · exact ht ht'
  · rw [hoff, readWord_bitbufLen hp, toNat_append_ofNat (by omega)]
  · rw [hoff, readWord_bitbufLen hp, (hinv.errorEmpty he).1]
    rfl

/-! ### Reset and the reset CLEAR (R13, R41) -/

theorem freqAt_blank (x : Byte) : freqAt (Vector.replicate 256 0) x = 0 := by
  simp [freqAt]

theorem nodeAt_blank (n : Nat) : nodeAt (Vector.replicate 511 emptyNode) n = emptyNode := by
  unfold nodeAt slot?
  rw [Vector.toList_replicate, List.getElem?_replicate]
  split <;> rfl

/-- PARAM holds NSYM - 1 above OUT_FIFO_DEPTH (R19). -/
theorem paramWord_toNat (p : Params) : (paramWord p).toNat = 0x00FF0000 + p.outFifoDepth := by
  have := p.fifoDepthPred.isLt
  unfold paramWord Params.outFifoDepth
  rw [BitVec.toNat_append, BitVec.toNat_append, BitVec.toNat_ofNat, Nat.mod_eq_of_lt (by omega),
    ← Nat.shiftLeft_add_eq_or_of_lt (by omega)]
  rfl

/-- FIFO has room when it is empty, since OUT_FIFO_DEPTH is at least 1 (R6). -/
theorem outFull_of_empty {s : State} (h : s.fifo = []) : s.outFull = false := by
  simp [State.outFull, h, Params.outFifoDepth]

/-- The state after the reset CLEAR: the reset state with nothing pending. -/
def resetCleared : State := { State.reset with cmdPending := none }

theorem step_reset : step State.reset = .next resetCleared := rfl

theorem statusWord_reset : statusWord State.reset = 0x00000003 := by
  unfold statusWord
  rw [outFull_of_empty rfl]
  rfl

/-- After the reset CLEAR every register but ID and PARAM holds 0. -/
theorem regValue_resetCleared {r : Reg} (hid : r ≠ .id) (hparam : r ≠ .param) : regValue resetCleared r = 0 := by
  cases r with
  | id => exact absurd rfl hid
  | param => exact absurd rfl hparam
  | status =>
    show statusWord resetCleared = 0
    unfold statusWord
    rw [outFull_of_empty rfl]
    rfl
  | freq x => exact freqAt_blank x
  | codeLen x =>
    show codeLenWord (codeAt (Vector.replicate 256 []) x) = 0
    rw [codeAt_blank]; rfl
  | codeBits x j =>
    show codeBitsWord (codeAt (Vector.replicate 256 []) x) j = 0
    rw [codeAt_blank]
    simp [codeBitsWord, bitsVal]
  | node n w =>
    show nodeWord (nodeAt (Vector.replicate 511 emptyNode) n) w = 0
    rw [nodeAt_blank]
    clear hid hparam
    revert w
    decide
  | cmd | err | errInfo | symcount | root | pad | inCount | outCount | outData | bitbufLen | reserved => rfl

theorem readWord_resetCleared (off : Offset) : resetCleared.readWord off = regValue resetCleared (regAt off) :=
  readWord_of_not_isDraw (by simp [isDraw, resetCleared, State.reset, State.pending])

/-- Settles O52: the reads of the reset state by `isDraw_regAt`, those after the reset CLEAR by
`regValue_resetCleared`. -/
theorem resetAndResetClear : Obligations.ResetAndResetClear := by
  unfold Obligations.ResetAndResetClear
  refine ⟨rfl, rfl, freqAt_blank, nodeAt_blank, rfl, rfl, rfl, codeAt_blank, rfl, rfl, rfl, rfl, rfl, rfl, rfl, rfl,
    statusWord_reset, rfl, paramWord_toNat _, rfl, rfl, rfl, fun off ha hoff => ?_, resetCleared, step_reset,
    fun off _ => ?_⟩
  · exact (read_of_isDraw ((isDraw_regAt _ ha).mpr (.inl ⟨rfl, hoff⟩))).1
  · rw [readWord_resetCleared]
    refine ⟨fun h => by rw [h]; rfl, fun h => by rw [h]; exact paramWord_toNat _, fun hid hparam => ?_⟩
    refine regValue_resetCleared (fun h => hid ?_) (fun h => hparam ?_)
    · exact eq_of_regAt_eq_controlReg h (by decide)
    · exact eq_of_regAt_eq_controlReg h (by decide)

end Sys2Proof.Machine
end

section
/-! SUPPORT. Command words (spec/30_encoding.md R60 to R62): a word that decodes to a command is the command's
encoding, and the encoding decodes to the command. -/

namespace Sys2Proof.Machine

/-- A word is its three fields (R60). -/
theorem word_of_fields (w : Word) : opcField w ++ rsvdField w ++ argField w = w := by
  refine BitVec.eq_of_getLsbD_eq fun i hi => ?_
  simp only [opcField, rsvdField, argField, BitVec.getLsbD_append, BitVec.getLsbD_extractLsb']
  by_cases h8 : i < 8
  · simp [h8]
  · by_cases h24 : i - 8 < 16
    · simp [h8, h24, show 8 + (i - 8) = i by omega]
    · simp [h8, h24, show i - 8 - 16 < 8 by omega, show 24 + (i - 8 - 16) = i by omega]

theorem decodePlain_eq_ok {i j : Instr} {w : Word} (h : decodePlain j w = .ok i) :
    i = j ∧ rsvdField w = 0 ∧ argField w = 0 := by
  unfold decodePlain at h
  split at h
  · simp at h
  · rename_i hr
    split at h
    · simp at h
    · rename_i ha
      simp only [Except.ok.injEq] at h
      exact ⟨h.symm, not_not.mp hr, not_not.mp ha⟩

theorem decodeEnc_eq_ok {i : Instr} {w : Word} (h : decodeEnc w = .ok i) :
    i = .enc (argField w) ∧ rsvdField w = 0 := by
  unfold decodeEnc at h
  split at h
  · simp at h
  · rename_i hr
    simp only [Except.ok.injEq] at h
    exact ⟨h.symm, not_not.mp hr⟩

/-- What a word that decodes holds in its fields (R60, R62). -/
theorem fields_of_decode {i : Instr} {w : Word} (h : decode w = .ok i) :
    opcField w = opcOf i ∧ rsvdField w = 0 ∧ argField w = argOf i := by
  have hopc : ∀ {n : Nat}, (opcField w).toNat = n → n < 256 → opcField w = BitVec.ofNat 8 n := fun hn hlt =>
    BitVec.eq_of_toNat_eq (by rw [hn, BitVec.toNat_ofNat, Nat.mod_eq_of_lt (by omega)])
  unfold decode at h
  split at h
  case h_7 => simp at h
  case h_5 hn =>
    obtain ⟨rfl, hr⟩ := decodeEnc_eq_ok h
    exact ⟨hopc hn (by decide), hr, rfl⟩
  all_goals
    rename_i hn
    obtain ⟨rfl, hr, ha⟩ := decodePlain_eq_ok h
    exact ⟨hopc hn (by decide), hr, ha⟩

theorem encode_of_decode {i : Instr} {w : Word} (h : decode w = .ok i) : encode i = w := by
  obtain ⟨hopc, hrsvd, harg⟩ := fields_of_decode h
  rw [← word_of_fields w, hopc, hrsvd, harg]
  rfl

theorem decode_encode (i : Instr) : decode (encode i) = .ok i := by
  cases i with
  | enc x =>
    obtain ⟨-, hopc, hrsvd, harg⟩ := Laws.OpcodeRow.enc x
    simp only [decode, hopc, opcOf, decodeEnc, hrsvd, harg, argOf]
    rfl
  | nop | clear | build | gen | flush => rfl

theorem encode_enc (x : Byte) : encode (.enc x) = 0x04000000 + x.setWidth 32 := by
  revert x; decide

end Sys2Proof.Machine
end

section
/-! SUPPORT. What one step of the machine does to the HTB, said once: `StepEffect`. The schedule and the Host's record
play no part in the effect of a Host access. -/

namespace Sys2Proof.Machine

/-! ### The HTB beside another schedule and another Host (log 1) -/

@[simp] theorem withHost_phase (s : State) (a : List Agent) (h : HostState) : (s.withHost a h).phase = s.phase := rfl
@[simp] theorem withHost_cmdPending (s : State) (a : List Agent) (h : HostState) : (s.withHost a h).cmdPending = s.cmdPending := rfl
@[simp] theorem withHost_freq (s : State) (a : List Agent) (h : HostState) : (s.withHost a h).freq = s.freq := rfl
@[simp] theorem withHost_node (s : State) (a : List Agent) (h : HostState) : (s.withHost a h).node = s.node := rfl
@[simp] theorem withHost_rootValid (s : State) (a : List Agent) (h : HostState) : (s.withHost a h).rootValid = s.rootValid := rfl
@[simp] theorem withHost_rootIdx (s : State) (a : List Agent) (h : HostState) : (s.withHost a h).rootIdx = s.rootIdx := rfl
@[simp] theorem withHost_symcount (s : State) (a : List Agent) (h : HostState) : (s.withHost a h).symcount = s.symcount := rfl
@[simp] theorem withHost_code (s : State) (a : List Agent) (h : HostState) : (s.withHost a h).code = s.code := rfl
@[simp] theorem withHost_bitbuf (s : State) (a : List Agent) (h : HostState) : (s.withHost a h).bitbuf = s.bitbuf := rfl
@[simp] theorem withHost_fifo (s : State) (a : List Agent) (h : HostState) : (s.withHost a h).fifo = s.fifo := rfl
@[simp] theorem withHost_pad (s : State) (a : List Agent) (h : HostState) : (s.withHost a h).pad = s.pad := rfl
@[simp] theorem withHost_inCount (s : State) (a : List Agent) (h : HostState) : (s.withHost a h).inCount = s.inCount := rfl
@[simp] theorem withHost_outCount (s : State) (a : List Agent) (h : HostState) : (s.withHost a h).outCount = s.outCount := rfl
@[simp] theorem withHost_errCause (s : State) (a : List Agent) (h : HostState) : (s.withHost a h).errCause = s.errCause := rfl
@[simp] theorem withHost_errMulti (s : State) (a : List Agent) (h : HostState) : (s.withHost a h).errMulti = s.errMulti := rfl
@[simp] theorem withHost_errInfo (s : State) (a : List Agent) (h : HostState) : (s.withHost a h).errInfo = s.errInfo := rfl
@[simp] theorem withHost_params (s : State) (a : List Agent) (h : HostState) : (s.withHost a h).params = s.params := rfl
@[simp] theorem withHost_draws (s : State) (a : List Agent) (h : HostState) : (s.withHost a h).draws = s.draws := rfl
@[simp] theorem withHost_sched (s : State) (a : List Agent) (h : HostState) : (s.withHost a h).sched = a := rfl
@[simp] theorem withHost_host (s : State) (a : List Agent) (h : HostState) : (s.withHost a h).host = h := rfl

theorem raise_withHost (s : State) (a : List Agent) (h : HostState) (c : Cause) (w : Word) :
    (s.withHost a h).raise c w = (s.raise c w).withHost a h := by
  unfold State.raise
  by_cases hp : s.phase = .error
  · rw [if_pos hp, if_pos (show (s.withHost a h).phase = .error from hp)]; rfl
  · rw [if_neg hp, if_neg (show (s.withHost a h).phase ≠ .error from hp)]; rfl

theorem busy_withHost (s : State) (a : List Agent) (h : HostState) : (s.withHost a h).busy = s.busy := rfl

theorem accept_withHost (s : State) (a : List Agent) (h : HostState) (v : Word) :
    (s.withHost a h).accept v = (s.accept v).withHost a h := by
  unfold State.accept
  rw [busy_withHost, raise_withHost]
  split
  · rfl
  · split <;> rfl

theorem freqWrite_withHost (s : State) (a : List Agent) (h : HostState) (x : Byte) (off : Offset) (v : Word) :
    (s.withHost a h).freqWrite x off v = (s.freqWrite x off v).withHost a h := by
  unfold State.freqWrite
  rw [busy_withHost, raise_withHost, raise_withHost, withHost_phase]
  split
  · rfl
  · split <;> rfl

/-- A Host write has the same effect on the HTB whatever the schedule and the Host hold (R49). -/
theorem memWrite_withHost (s : State) (a : List Agent) (h : HostState) (off : Offset) (v : Word) :
    (s.withHost a h).memWrite off v = (s.memWrite off v).withHost a h := by
  unfold State.memWrite
  cases regAt off with
  | cmd => exact accept_withHost s a h v
  | freq x => exact freqWrite_withHost s a h x off v
  | _ => rfl

/-- A Host read has the same effect on the HTB whatever the schedule and the Host hold (R51, R52). -/
theorem afterRead_withHost (s : State) (a : List Agent) (h : HostState) (off : Offset) :
    (s.withHost a h).afterRead off = (s.afterRead off).withHost a h := by
  unfold State.afterRead
  rw [show isDraw (s.withHost a h) (regAt off) = isDraw s (regAt off) from rfl]
  split
  · rfl
  · split <;> rfl

/-! ### What one step does -/

/-- The state with the pending word taken and one entry of the schedule used up: what EXEC runs a command on (R69). -/
def State.taken (s : State) : State := { s with cmdPending := none, sched := s.sched.tail }

/-- Where the Engine moves, the step is the pending command on the taken state (R69). -/
theorem step_of_command {s : State} {w : Word} {i : Instr} (ha : s.nextAgent = some .engine)
    (hw : s.cmdPending = some w) (hi : decode w = .ok i) : step s = exec i s.taken := by
  rw [step_of_engine ha, engineStep, advance_cmdPending, hw]
  dsimp only
  rw [execWord, hi]
  rfl

/-- Where the Host moves, the step is its next operation, taken off its program (R48). -/
theorem step_of_hostOp {s : State} {op : HostOp} {rest : List HostOp} (ha : s.nextAgent = some .host)
    (hp : s.host.prog = op :: rest) : step s = hostOp op (s.withHost s.sched.tail { s.host with prog := rest }) := by
  rw [step_of_host ha, hostStep, advance_host, hp]
  rfl

/-- Settles O53: the step is the Host's operation, and reset writes every element of R13. -/
theorem resetInput : Obligations.ResetInput := by
  unfold Obligations.ResetInput
  intro s rest ha hp
  rw [step_of_hostOp ha hp]
  rfl

/-- Settles O4: the Engine's step on the taken state; the Engine moves as `nextAgent_engine` and
`nextAgent_engine_of_alone` say. -/
theorem stepRunsPendingCommand : Obligations.StepRunsPendingCommand := by
  unfold Obligations.StepRunsPendingCommand
  refine ⟨fun s w i hw hi ha => step_of_command ha hw hi, fun s w hw hs => ?_⟩
  have hready : s.engineReady = true := by simp [State.engineReady, State.pending, hw]
  rcases hs with hs | hp
  · exact nextAgent_engine hready hs
  · exact nextAgent_engine_of_alone (by simp [State.hostReady, hp]) hready

/-- What one step of the machine does to the HTB, and who does it. The schedule and the Host's record after a Host step
are left open (log 1). -/
inductive StepEffect (s : State) : State → Prop where
  | idle (ha : s.nextAgent = none) : StepEffect s s
  | command {w : Word} {i : Instr} {t : State} (ha : s.nextAgent = some .engine) (hw : s.cmdPending = some w)
      (hi : decode w = .ok i) (ht : exec i s.taken = .next t) : StepEffect s t
  | illegal {w : Word} {e : Illegal} (ha : s.nextAgent = some .engine) (hw : s.cmdPending = some w)
      (he : decode w = .error e) : StepEffect s (s.taken.raise .illegalCmd w)
  | drain (ha : s.nextAgent = some .engine) (hw : s.cmdPending = none) (hd : s.drainReady = true) :
      StepEffect s s.advance.drain
  | write {off : Offset} {v : Word} (h : HostState) (ha : s.nextAgent = some .host)
      (hp : s.host.prog.head? = some (.wr off 4 v)) (hoff : off.toNat % 4 = 0) :
      StepEffect s ((s.memWrite off v).withHost s.sched.tail h)
  | read (off : Offset) (h : HostState) (ha : s.nextAgent = some .host) :
      StepEffect s ((s.afterRead off).withHost s.sched.tail h)
  | reset (h : HostState) (ha : s.nextAgent = some .host) (hp : s.host.prog.head? = some .reset) :
      StepEffect s (s.applyReset.withHost s.sched.tail h)

/-- A Host operation on the HTB: one write, one read, or reset. -/
theorem StepEffect.of_hostOp {s t : State} {op : HostOp} {rest : List HostOp} (ha : s.nextAgent = some .host)
    (hp : s.host.prog = op :: rest) (h : hostOp op (s.withHost s.sched.tail { s.host with prog := rest }) = .next t) :
    StepEffect s t := by
  have hread : ∀ (off : Offset) (name : String), ∃ h',
      hostRead off name (s.withHost s.sched.tail { s.host with prog := rest }) =
        (s.afterRead off).withHost s.sched.tail h' := fun off name => by
    unfold hostRead
    rw [afterRead_withHost]
    exact ⟨_, rfl⟩
  rcases hostOp_cases h with ⟨off, v, rfl, hoff, rfl⟩ | ⟨off, name, rfl, -, rfl⟩ | ⟨rfl, rfl⟩ | ⟨rfl, rfl⟩ |
    ⟨rfl, rfl⟩ | ⟨rfl, rfl⟩
  · rw [hostWrite, memWrite_withHost]
    exact .write _ ha (by rw [hp]; rfl) hoff
  · obtain ⟨h', hr⟩ := hread off name
    rw [hr]; exact .read off _ ha
  · obtain ⟨h', hr⟩ := hread statusOff "st"
    rw [hr]; exact .read statusOff _ ha
  · obtain ⟨h', hr⟩ := hread statusOff "st"
    rw [hr]; exact .read statusOff _ ha
  · obtain ⟨h', hr⟩ := hread outDataOff "b"
    rw [hr]; exact .read outDataOff _ ha
  · exact .reset _ ha (by rw [hp]; rfl)

theorem StepEffect.of_step {s t : State} (h : step s = .next t) : StepEffect s t := by
  rcases step_cases h with ⟨ha, rfl⟩ | ⟨ha, he⟩ | ⟨op, rest, ha, hp, ho⟩
  · exact .idle ha
  · rcases engineStep_cases he with ⟨w, i, hw, hi, ht⟩ | ⟨w, e, hw, hd, rfl⟩ | ⟨hw, hd, rfl⟩ | ⟨hw, hd, -⟩
    · exact .command ha hw hi ht
    · exact .illegal ha hw hd
    · exact .drain ha hw hd
    · have hready : s.engineReady = true := (nextAgent_ready s).2.1 ha
      have hpend : s.pending = false := by rw [State.pending, show s.cmdPending = none from hw]; rfl
      have hdr : s.drainReady = false := hd
      simp [State.engineReady, hpend, hdr] at hready
  · exact .of_hostOp ha hp ho

/-- The step that starts a new run is CLEAR's or reset's (R72, R113). -/
theorem step_of_clearsNext {s : State} (h : s.clearsNext) :
    step s = .next s.taken.doClear ∨ ∃ x, step s = .next (s.applyReset.withHost s.sched.tail x) := by
  rcases h with ⟨ha, hw⟩ | ⟨ha, hp⟩
  · exact .inl (step_of_command (i := .clear) ha hw rfl)
  · obtain ⟨rest, hp⟩ := List.head?_eq_some_iff.mp hp
    exact .inr ⟨_, step_of_hostOp ha hp⟩

/-! ### What a Host write does -/

/-- A write puts a word in CMD_PENDING, raises an error, writes one frequency, or does nothing (R49, R50, R68). -/
theorem memWrite_effect (s : State) (off : Offset) (v : Word) :
    ((v = clearWord ∨ s.busy = false) ∧ s.memWrite off v = { s with cmdPending := some v }) ∨
    (∃ c w, c ≠ .none ∧ s.memWrite off v = s.raise c w) ∨
    (∃ x, regAt off = .freq x ∧ s.busy = false ∧ s.phase = .load ∧
      s.memWrite off v = { s with freq := s.freq.set x.toNat v x.isLt }) ∨
    s.memWrite off v = s := by
  rcases memWrite_cases s off v with ⟨-, hm⟩ | ⟨x, hx, hm⟩ | ⟨-, -, hm⟩ <;> rw [hm]
  · rcases accept_cases s v with ⟨hv, h⟩ | ⟨-, -, h⟩
    · exact .inl ⟨hv, h⟩
    · exact .inr (.inl ⟨_, _, by simp, h⟩)
  · rcases freqWrite_cases s x off v with ⟨-, h⟩ | ⟨-, -, h⟩ | ⟨hb, hp, h⟩
    · exact .inr (.inl ⟨_, _, by simp, h⟩)
    · exact .inr (.inl ⟨_, _, by simp, h⟩)
    · exact .inr (.inr (.inl ⟨x, hx, hb, hp, h⟩))
  · exact .inr (.inr (.inr rfl))

theorem busy_eq_false {s : State} : s.busy = false ↔ s.cmdPending = none ∧ s.bitbuf.length < 8 := by
  simp [State.busy, State.pending, State.drainFlag]

end Sys2Proof.Machine
end

section
/-! SUPPORT. The invariant: every operation keeps it, and so does every step (spec/10_state.md R13, R14, R37, R38). -/

namespace Sys2Proof.Machine

theorem clearWord_of_decode {w : Word} (h : decode w = .ok .clear) : w = clearWord := (encode_of_decode h).symm

theorem clear_of_decode {i : Instr} (h : decode clearWord = .ok i) : i = .clear := (Except.ok.inj h).symm

/-! ### The invariant and each operation -/

theorem Inv.withHost {s : State} (h : Inv s) (a : List Agent) (x : HostState) : Inv (s.withHost a x) :=
  { h with }

theorem Inv.taken {s : State} (h : Inv s) : Inv s.taken :=
  { h with pendingDrained := fun _ hw => by simp [State.taken] at hw }

/-- Everything CLEAR and reset write, with any word pending (R13, R72). -/
theorem inv_blank (c : Option Word) (p : Params) (d : Nat) (a : List Agent) (h : HostState) :
    Inv { State.reset with cmdPending := c, params := p, draws := d, sched := a, host := h } where
  pendingDrained _ _ _ := Nat.zero_le _
  bitbufFits := Nat.zero_le _
  fifoFits := Nat.zero_le _
  padFits := Nat.zero_le _
  symcountFits := Nat.zero_le _
  codesFit x := by
    show (codeAt (Vector.replicate 256 []) x).length ≤ 255
    rw [codeAt_blank]; exact Nat.zero_le _
  errorReported := by simp [State.reset]
  noErrorNoInfo _ := ⟨rfl, rfl⟩
  errorEmpty _ := ⟨rfl, rfl⟩
  loadBlank _ := ⟨rfl, rfl, rfl, rfl, rfl⟩
  treeStands h := by simp [State.reset, hasTree] at h
  codesStand h := by simp [State.reset, hasCodes] at h
  nothingEncoded _ := ⟨rfl, rfl, rfl, rfl⟩
  padZero _ _ := rfl

theorem inv_doClear (s : State) : Inv s.doClear := inv_blank _ _ _ _ _

theorem inv_applyReset (s : State) : Inv s.applyReset := inv_blank _ _ _ _ _

/-- Outside ERROR no error is reported, nor in a next phase outside ERROR. -/
theorem Inv.errorReported_of_ne {s : State} (h : Inv s) (hp : s.phase ≠ .error) {p : Phase} (hp' : p ≠ .error) :
    p = .error ↔ s.errCause ≠ .none :=
  iff_of_false hp' fun hc => hp (h.errorReported.mpr hc)

theorem Inv.multi {s : State} (h : Inv s) (hp : s.phase = .error) : Inv { s with errMulti := true } :=
  { h with noErrorNoInfo := fun hc => absurd hc (h.errorReported.mp hp) }

/-- The error entry (R105). -/
theorem Inv.raise {s : State} (h : Inv s) {c : Cause} (hc : c ≠ .none) (w : Word) : Inv (s.raise c w) := by
  by_cases hp : s.phase = .error
  · rw [raise_of_error hp]; exact h.multi hp
  · rw [raise_of_ne hp]
    exact { h with
      pendingDrained := fun _ _ _ => Nat.zero_le _
      bitbufFits := Nat.zero_le _
      fifoFits := Nat.zero_le _
      errorReported := iff_of_true rfl hc
      noErrorNoInfo := fun hc' => absurd hc' hc
      errorEmpty := fun _ => ⟨rfl, rfl⟩
      loadBlank := fun hl => by cases hl
      treeStands := fun ht => by cases ht
      codesStand := fun hk => by cases hk
      nothingEncoded := fun hb => by cases hb
      padZero := fun _ hne => absurd rfl hne }

/-- A Host write (R49): a word is accepted over at most 7 bits, or is CLEAR; FREQ changes in LOAD only. -/
theorem Inv.memWrite {s : State} (h : Inv s) (off : Offset) (v : Word) : Inv (s.memWrite off v) := by
  rcases memWrite_effect s off v with ⟨hv, hm⟩ | ⟨c, w, hc, hm⟩ | ⟨x, -, -, hp, hm⟩ | hm <;> rw [hm]
  · refine { h with pendingDrained := fun w hw hne => ?_ }
    rcases hv with rfl | hb
    · exact absurd (Option.some.inj hw).symm hne
    · exact Nat.le_of_lt_succ (busy_eq_false.mp hb).2
  · exact h.raise hc w
  · exact { h with
      treeStands := fun ht => by simp [hp, hasTree] at ht
      codesStand := fun hk => by simp [hp, hasCodes] at hk }
  · exact h

/-- A Host read (R51, R52). -/
theorem Inv.afterRead {s : State} (h : Inv s) (off : Offset) : Inv (s.afterRead off) := by
  rcases afterRead_cases s off with ⟨-, -, hr⟩ | ⟨-, -, hr⟩ | ⟨-, -, -, hr⟩ <;> rw [hr]
  · exact { h with }
  · refine { h with fifoFits := ?_, errorEmpty := fun hp => ?_, nothingEncoded := fun hb => ?_ }
    · exact (List.length_tail ▸ Nat.sub_le _ _).trans h.fifoFits
    · obtain ⟨hbits, hfifo⟩ := h.errorEmpty hp
      exact ⟨hbits, by simp [hfifo]⟩
    · obtain ⟨hbits, hfifo, hcounts⟩ := h.nothingEncoded hb
      exact ⟨hbits, by simp [hfifo], hcounts⟩
  · exact h

theorem drainReady_iff (s : State) :
    s.drainReady = true ↔ s.cmdPending = none ∧ 8 ≤ s.bitbuf.length ∧ s.fifo.length < s.params.outFifoDepth := by
  simp [State.drainReady, State.pending, State.drainFlag, and_assoc]

/-- DRAIN (R89). -/
theorem Inv.drain {s : State} (h : Inv s) (hd : s.drainReady = true) : Inv s.drain := by
  obtain ⟨hc, hbits, hroom⟩ := (drainReady_iff s).mp hd
  have hne : s.bitbuf ≠ [] := fun hb => by simp [hb] at hbits
  exact { h with
    pendingDrained := fun w hw => by simp [hc] at hw
    bitbufFits := (List.length_drop ▸ Nat.sub_le _ _).trans h.bitbufFits
    fifoFits := by simpa using hroom
    errorEmpty := fun hp => absurd (h.errorEmpty hp).1 hne
    nothingEncoded := fun hb => absurd (h.nothingEncoded hb).1 hne }

/-- The root index fits its 9 bits, so ROOT_IDX names the root of the tree (R78, R80). -/
theorem buildTree_shape_rootIdx {t : FreqTable} (hk : symbolsOf t ≠ []) :
    TreeShape t (buildTree t).arena (symbolsOf t).length (BitVec.ofNat 9 (rootOf (buildTree t))).toNat := by
  have hshape := buildTree_shape t (symbolCount_pos hk)
  have hroot : (BitVec.ofNat 9 (rootOf (buildTree t))).toNat = rootOf (buildTree t) := by
    have := hshape.root_valid.2
    have := hshape.count_le
    exact Nat.mod_eq_of_lt (by omega)
  rw [hroot, symbolsOf_length]
  exact hshape

/-- BUILD's effect in LOAD (R80). -/
theorem Inv.build {s : State} (h : Inv s) (hp : s.phase = .load) (hk : symbolsOf s.freq ≠ []) :
    Inv { s with
      node := (buildTree s.freq).arena
      symcount := (symbolsOf s.freq).length
      rootValid := true
      rootIdx := BitVec.ofNat 9 (rootOf (buildTree s.freq))
      phase := .tree } := by
  have hshape := buildTree_shape_rootIdx hk
  exact { h with
    symcountFits := hshape.count_le
    errorReported := h.errorReported_of_ne (by simp [hp]) (by simp)
    errorEmpty := fun he => by cases he
    loadBlank := fun hl => by cases hl
    treeStands := fun _ => ⟨rfl, hshape⟩
    codesStand := fun hk => by cases hk
    nothingEncoded := fun _ => h.nothingEncoded (by rw [hp]; rfl)
    padZero := fun _ _ => h.padZero (by simp [hp]) (by simp [hp]) }

/-- GEN's effect in TREE (R85). -/
theorem Inv.gen {s : State} (h : Inv s) (hp : s.phase = .tree) {c : CodeTable} (hc : codesOf s = some c) :
    Inv { s with code := c, phase := .coded } := by
  obtain ⟨hroot, hshape⟩ := h.treeStands (by rw [hp]; rfl)
  obtain ⟨c', hc', hmatch⟩ := codesOf_spec hshape
  obtain rfl : c' = c := Option.some.inj (hc'.symm.trans hc)
  exact { h with
    codesFit := fun x => (hmatch.length hshape x).1
    errorReported := h.errorReported_of_ne (by simp [hp]) (by simp)
    errorEmpty := fun he => by cases he
    loadBlank := fun hl => by cases hl
    treeStands := fun _ => ⟨hroot, hshape⟩
    codesStand := fun _ => hmatch
    nothingEncoded := fun _ => h.nothingEncoded (by rw [hp]; rfl)
    padZero := fun _ _ => h.padZero (by simp [hp]) (by simp [hp]) }

/-- The tree and the codes stand in CODED and ENCODE, and no error is reported (R14). -/
theorem Inv.standing {s : State} (h : Inv s) (hp : s.phase = .coded ∨ s.phase = .encode) :
    s.phase ≠ .error ∧ s.phase ≠ .done ∧ (s.rootValid = true ∧ TreeShape s.freq s.node s.symcount s.rootIdx.toNat) ∧
      codesMatch s := by
  rcases hp with hp | hp
  all_goals
    exact ⟨by simp [hp], by simp [hp], h.treeStands (by rw [hp]; rfl), h.codesStand (by rw [hp]; rfl)⟩

/-- ENC's effect over at most 7 bits (R87, R90). -/
theorem Inv.enc {s : State} (h : Inv s) (hp : s.phase = .coded ∨ s.phase = .encode) (hc : s.cmdPending = none)
    (hb : s.bitbuf.length ≤ 7) (x : Byte) :
    Inv { s with bitbuf := s.bitbuf ++ codeAt s.code x, inCount := s.inCount + 1, phase := .encode } := by
  obtain ⟨hne, hnd, htree, hcodes⟩ := h.standing hp
  have hlen := h.codesFit x
  exact { h with
    pendingDrained := fun w hw => by simp [hc] at hw
    bitbufFits := by rw [List.length_append]; omega
    errorReported := h.errorReported_of_ne hne (by simp)
    errorEmpty := fun he => by cases he
    loadBlank := fun hl => by cases hl
    treeStands := fun _ => htree
    codesStand := fun _ => hcodes
    nothingEncoded := fun hb => by cases hb
    padZero := fun _ _ => h.padZero hnd hne }

theorem padOf_le (r : Nat) : padOf r ≤ 7 := by
  unfold padOf; split <;> omega

/-- FLUSH's effect over at most 7 bits (R88, R90). -/
theorem Inv.flush {s : State} (h : Inv s) (hp : s.phase = .coded ∨ s.phase = .encode) (hc : s.cmdPending = none)
    (hb : s.bitbuf.length ≤ 7) :
    Inv { s with
      bitbuf := s.bitbuf ++ List.replicate (padOf s.bitbuf.length) false
      pad := padOf s.bitbuf.length
      phase := .done } := by
  obtain ⟨hne, -, htree, hcodes⟩ := h.standing hp
  have hpad := padOf_le s.bitbuf.length
  exact { h with
    pendingDrained := fun w hw => by simp [hc] at hw
    bitbufFits := by rw [List.length_append, List.length_replicate]; omega
    padFits := hpad
    errorReported := h.errorReported_of_ne hne (by simp)
    errorEmpty := fun he => by cases he
    loadBlank := fun hl => by cases hl
    treeStands := fun _ => htree
    codesStand := fun _ => hcodes
    nothingEncoded := fun hb => by cases hb
    padZero := fun hd => absurd rfl hd }

/-- A command, taken over at most 7 bits unless it is CLEAR (R90). -/
theorem Inv.exec {i : Instr} {s t : State} (h : Inv s) (hc : s.cmdPending = none)
    (hb : i ≠ .clear → s.bitbuf.length ≤ 7) (ht : exec i s = .next t) : Inv t := by
  rcases exec_cases ht with ⟨-, rfl⟩ | ⟨-, rfl⟩ | ⟨-, -, hp, rfl⟩ | ⟨c, w, -, -, -, hne, rfl⟩ | ⟨-, hp, hk, rfl⟩ |
    ⟨c, -, hp, hk, rfl⟩ | ⟨x, rfl, hp, -, rfl⟩ | ⟨rfl, hp, rfl⟩
  · exact h
  · exact inv_doClear s
  · exact h.multi hp
  · exact h.raise hne w
  · exact h.build hp hk
  · exact h.gen hp hk
  · exact h.enc hp hc (hb (by simp)) x
  · exact h.flush hp hc (hb (by simp))

/-- Settles O55: each effect of `StepEffect` keeps the invariant; the bound of R90 comes from `pendingDrained`, since
only CLEAR is taken over more than 7 bits. -/
theorem invariantKeptByStep : Obligations.InvariantKeptByStep := by
  unfold Obligations.InvariantKeptByStep
  intro s t h hstep
  cases StepEffect.of_step hstep with
  | idle => exact h
  | command _ hw hi ht =>
    exact h.taken.exec rfl (fun hne => h.pendingDrained _ hw fun hcl => hne (clear_of_decode (hcl ▸ hi))) ht
  | illegal => exact h.taken.raise (by simp) _
  | drain _ _ hd => exact Inv.drain (s := s.advance) { h with } hd
  | write => exact (h.memWrite _ _).withHost _ _
  | read => exact (h.afterRead _).withHost _ _
  | reset => exact (inv_applyReset s).withHost _ _

/-- Settles O54: reset writes what `inv_blank` names. -/
theorem invariantAtReset : Obligations.InvariantAtReset :=
  inv_blank State.reset.cmdPending State.reset.params 0 [] idleHost

end Sys2Proof.Machine
end

section
/-! SUPPORT. The register map and what each register reads (spec/10_state.md R17 to R36, R40). -/

namespace Sys2Proof.Machine

/-! ### The register map (R17) -/

theorem regAt_freq {off : Offset} {x : Byte} (h : off.toNat = 0x0400 + 4 * x.toNat) : regAt off = .freq x := by
  have hx := x.isLt
  have hidx : (off.toNat - 0x0400) / 4 = x.toNat := by omega
  unfold regAt
  simp [show ¬off.toNat < 0x0400 by omega, show off.toNat < 0x0800 by omega, hidx]

theorem regAt_codeLen {off : Offset} {x : Byte} (h : off.toNat = 0x0800 + 4 * x.toNat) : regAt off = .codeLen x := by
  have hx := x.isLt
  have hidx : (off.toNat - 0x0800) / 4 = x.toNat := by omega
  unfold regAt
  simp [show ¬off.toNat < 0x0400 by omega, show ¬off.toNat < 0x0800 by omega, show off.toNat < 0x0C00 by omega, hidx]

theorem regAt_codeBits {off : Offset} {x : Byte} {j : Fin 8} (h : off.toNat = 0x2000 + 32 * x.toNat + 4 * j.val) :
    regAt off = .codeBits x j := by
  have hx := x.isLt
  have hj := j.isLt
  have hidx : (off.toNat - 0x2000) / 32 = x.toNat := by omega
  have hword : (off.toNat - 0x2000) % 32 / 4 = j.val := by omega
  unfold regAt
  simp [show ¬off.toNat < 0x0400 by omega, show ¬off.toNat < 0x0800 by omega, show ¬off.toNat < 0x0C00 by omega,
    show ¬off.toNat < 0x2000 by omega, show off.toNat < 0x4000 by omega, hidx, hword]

theorem regAt_node {off : Offset} {n : Nat} {w : Fin 4} (hn : n < 511)
    (h : off.toNat = 0x4000 + 16 * n + 4 * w.val) : regAt off = .node n w := by
  have hw := w.isLt
  have hidx : (off.toNat - 0x4000) / 16 = n := by omega
  have hword : (off.toNat - 0x4000) % 16 / 4 = w.val := by omega
  unfold regAt
  simp [show ¬off.toNat < 0x0400 by omega, show ¬off.toNat < 0x0800 by omega, show ¬off.toNat < 0x0C00 by omega,
    show ¬off.toNat < 0x2000 by omega, show ¬off.toNat < 0x4000 by omega, show off.toNat < 0x5FF0 by omega, hidx, hword]

theorem controlReg_reserved {n : Nat} (h : 0x0034 ≤ n) : controlReg n = .reserved := by
  unfold controlReg
  split
  case h_14 => rfl
  all_goals omega

/-- The three ranges that R17 leaves reserved (R31). -/
theorem regAt_reserved {off : Offset} (ha : off.toNat % 4 = 0)
    (h : (0x0034 ≤ off.toNat ∧ off.toNat ≤ 0x03FC) ∨ (0x0C00 ≤ off.toNat ∧ off.toNat ≤ 0x1FFC) ∨ 0x5FF0 ≤ off.toNat) :
    regAt off = .reserved := by
  rcases regAt_cases off with ⟨hc, hr⟩ | ⟨hl, hu, -⟩ | ⟨hl, hu, -⟩ | ⟨hl, hu, -⟩ | ⟨hl, hu, -⟩ | ⟨-, hr⟩
  · rw [hr, controlReg_reserved (by omega)]
  · omega
  · omega
  · omega
  · omega
  · exact hr

/-- Settles O38, one lemma per range of the map. -/
theorem registerMap : Obligations.RegisterMap := by
  unfold Obligations.RegisterMap
  exact ⟨by decide, fun _ _ => regAt_freq, fun _ _ => regAt_codeLen, fun _ _ _ => regAt_codeBits,
    fun _ _ _ => regAt_node, fun _ => regAt_reserved⟩

/-! ### Reads that are no draws (R40) -/

/-- A register that is never a draw reads its value, in every state, and a read of it pops OUT_DATA at most. -/
theorem readWord_of_fixed {s : State} {off : Offset} (h : drawnWhilePending (regAt off) = false) :
    s.readWord off = regValue s (regAt off) ∧ (regAt off ≠ .outData → s.afterRead off = s) := by
  have hd : isDraw s (regAt off) = false := by
    have herr : drawnInError (regAt off) = false := Bool.eq_false_iff.mpr fun hne => by
      simp [(drawnWhilePending_iff _).mpr (.inl hne)] at h
    simp [isDraw, h, herr]
  refine ⟨readWord_of_not_isDraw (by simp [hd]), fun ho => ?_⟩
  simp [State.afterRead, hd, ho]

/-- With nothing pending and outside ERROR every register reads its value. -/
theorem readWord_of_quiet {s : State} (hp : s.pending = false) (he : s.phase ≠ .error) (off : Offset) :
    s.readWord off = regValue s (regAt off) :=
  readWord_of_not_isDraw (by simp [isDraw, hp, he])

/-! ### Fields of a register written from bit 31 down -/

theorem getLsbD_append_low {n m i : Nat} (x : BitVec n) (y : BitVec m) (h : i < m) :
    (x ++ y).getLsbD i = y.getLsbD i := by
  rw [BitVec.getLsbD_append, if_pos h]

theorem getLsbD_append_high {n m i : Nat} (x : BitVec n) (y : BitVec m) (h : m ≤ i) :
    (x ++ y).getLsbD i = x.getLsbD (i - m) := by
  rw [BitVec.getLsbD_append, if_neg (by omega)]

@[simp] theorem bit_getLsbD_zero (b : Bool) : (bit b).getLsbD 0 = b := by
  cases b <;> rfl

theorem toNat_zero_append {n m : Nat} (x : BitVec m) : ((0 : BitVec n) ++ x).toNat = x.toNat := by
  simp [BitVec.toNat_append]

/-! ### STATUS (R21) -/

theorem statusWord_busy (s : State) : (statusWord s).getLsbD 0 = s.busy := by
  unfold statusWord
  rw [getLsbD_append_low _ _ (by decide), bit_getLsbD_zero]

/-- The phase as STATUS reads it. -/
theorem statusWord_phase (s : State) : (statusWord s).extractLsb' 4 3 = phaseCode s.phase := by
  unfold statusWord
  simp (disch := decide) only [BitVec.extractLsb'_append_eq_of_le, BitVec.extractLsb'_append_eq_of_add_le]
  exact BitVec.extractLsb'_eq_self

theorem statusWord_level (s : State) : (statusWord s).extractLsb' 16 16 = BitVec.ofNat 16 s.fifo.length := by
  unfold statusWord
  simp (disch := decide) only [BitVec.extractLsb'_append_eq_of_le]
  exact BitVec.extractLsb'_eq_self

/-- The single bits of STATUS above BUSY, and its reserved bits. -/
theorem statusWord_bits (s : State) :
    (statusWord s).getLsbD 1 = s.pending ∧ (statusWord s).getLsbD 2 = s.drainFlag ∧ (statusWord s).getLsbD 3 = false ∧
    (statusWord s).getLsbD 7 = false ∧ (statusWord s).getLsbD 8 = s.outValid ∧ (statusWord s).getLsbD 9 = s.outFull ∧
    (statusWord s).extractLsb' 10 6 = 0 := by
  unfold statusWord
  simp (disch := decide) only [getLsbD_append_high, getLsbD_append_low, BitVec.extractLsb'_append_eq_of_le,
    BitVec.extractLsb'_append_eq_of_add_le]
  refine ⟨bit_getLsbD_zero _, bit_getLsbD_zero _, rfl, rfl, bit_getLsbD_zero _, bit_getLsbD_zero _, rfl⟩

theorem readWord_status (s : State) : s.readWord 0x0008 = statusWord s :=
  (readWord_of_fixed (off := 0x0008) (by decide)).1

/-- Settles O39, field by field from the layout of `statusWord`. -/
theorem statusLayout : Obligations.StatusLayout := by
  unfold Obligations.StatusLayout
  intro s hfits
  obtain ⟨hpend, hdrain, h3, h7, hvalid, hfull, hres⟩ := statusWord_bits s
  refine ⟨_, readWord_status s, (readWord_of_fixed (off := 0x0008) (by decide)).2 (by decide), statusWord_busy s, hpend,
    hdrain, h3, ?_, h7, ?_, hfull, hres, ?_⟩
  · rw [statusWord_phase]
    cases s.phase <;> rfl
  · rw [hvalid, State.outValid]
    exact decide_eq_decide.mpr List.length_pos_iff
  · have hdepth := s.params.fifoDepthPred.isLt
    unfold Params.outFifoDepth at hfits
    rw [statusWord_level, BitVec.toNat_ofNat, Nat.mod_eq_of_lt (by omega)]

/-- Settles O49: bit 0 of STATUS is BUSY, and with BUSY = 0 nothing is pending and no full byte waits. -/
theorem pollingSynchronises : Obligations.PollingSynchronises := by
  unfold Obligations.PollingSynchronises
  intro s h
  rw [readWord_status, statusWord_busy] at h
  obtain ⟨hc, hb⟩ := busy_eq_false.mp h
  exact ⟨hc, hb, by simp [State.engineReady, State.drainReady, State.pending, State.drainFlag, hc, hb]⟩

/-! ### ERR and ERR_INFO (R22, R23, R95) -/

theorem errWord_fields (s : State) :
    (errWord s).extractLsb' 0 4 = causeCode s.errCause ∧ (errWord s).extractLsb' 4 4 = 0 ∧
    (errWord s).getLsbD 8 = s.errMulti ∧ (errWord s).extractLsb' 9 23 = 0 := by
  unfold errWord
  simp (disch := decide) only [getLsbD_append_high, getLsbD_append_low, BitVec.extractLsb'_append_eq_of_le,
    BitVec.extractLsb'_append_eq_of_add_le]
  exact ⟨BitVec.extractLsb'_eq_self, rfl, bit_getLsbD_zero _, rfl⟩

/-- Settles O40, from the layout of `errWord`; without an error the invariant has ERR_INFO 0. -/
theorem errLayout : Obligations.ErrLayout := by
  unfold Obligations.ErrLayout
  intro s
  obtain ⟨hcause, h4, hmulti, h9⟩ := errWord_fields s
  have hinfo : s.readWord 0x0010 = s.errInfo := (readWord_of_fixed (off := 0x0010) (by decide)).1
  refine ⟨_, (readWord_of_fixed (off := 0x000C) (by decide)).1, ?_, h4, hmulti, h9, hinfo, fun h hc => ?_⟩
  · show ((errWord s).extractLsb' 0 4).toNat = _
    rw [hcause]
    cases s.errCause <;> rfl
  · rw [hinfo, (h.noErrorNoInfo hc).1]

/-! ### The other registers below 0x0400, and FREQ (R18 to R20, R24 to R28, R30 to R32) -/

theorem rootWord_fields (s : State) :
    (rootWord s).extractLsb' 0 9 = s.rootIdx ∧ (rootWord s).extractLsb' 9 22 = 0 ∧
    (rootWord s).getLsbD 31 = s.rootValid := by
  unfold rootWord
  simp (disch := decide) only [getLsbD_append_high, BitVec.extractLsb'_append_eq_of_le,
    BitVec.extractLsb'_append_eq_of_add_le]
  exact ⟨BitVec.extractLsb'_eq_self, rfl, bit_getLsbD_zero _⟩

/-- Settles O41: each register reads `regValue`, which under the invariant is the number itself in the bounded fields. -/
theorem registersReadTheirValues : Obligations.RegistersReadTheirValues := by
  unfold Obligations.RegistersReadTheirValues
  intro s
  have hid := readWord_of_fixed (s := s) (off := 0x0000) (by decide)
  have hcmd := readWord_of_fixed (s := s) (off := 0x0004) (by decide)
  have hparam := readWord_of_fixed (s := s) (off := 0x002C) (by decide)
  refine ⟨hid.1, hcmd.1, ?_, hid.2 (by decide), hcmd.2 (by decide), hparam.2 (by decide), fun off ha hoff => ?_,
    fun hp he => ?_⟩
  · rw [hparam.1]; exact paramWord_toNat s.params
  · have hr := regAt_reserved ha hoff
    have hread := readWord_of_fixed (s := s) (off := off) (by rw [hr]; rfl)
    rw [hr] at hread
    exact ⟨hread.1, hread.2 (by decide)⟩
  · have hread := readWord_of_quiet hp he
    obtain ⟨hidx, hzero, hvalid⟩ := rootWord_fields s
    have hroot : s.readWord 0x0018 = rootWord s := hread _
    rw [hroot]
    refine ⟨fun x off hoff => ?_, hidx, hzero, hvalid, hread _, hread _, fun h => ⟨?_, ?_, ?_⟩⟩
    · rw [hread, regAt_freq hoff]; rfl
    · rw [hread]
      exact toNat_append_ofNat (by have := h.symcountFits; omega)
    · rw [hread]
      refine (toNat_zero_append _).trans (Nat.mod_eq_of_lt ?_)
      have := h.padFits; omega
    · rw [readWord_bitbufLen hp]
      exact toNat_append_ofNat (by have := h.bitbufFits; omega)

/-! ### NODE (R34) -/

theorem nodeWord_one_fields (x : Node) :
    (nodeWord x 1).extractLsb' 0 8 = x.f.extractLsb' 32 8 ∧ (nodeWord x 1).extractLsb' 8 22 = 0 ∧
    (nodeWord x 1).getLsbD 30 = x.leaf ∧ (nodeWord x 1).getLsbD 31 = x.valid := by
  unfold nodeWord
  simp (disch := decide) only [getLsbD_append_high, getLsbD_append_low, BitVec.extractLsb'_append_eq_of_le,
    BitVec.extractLsb'_append_eq_of_add_le]
  exact ⟨BitVec.extractLsb'_eq_self, rfl, bit_getLsbD_zero _, bit_getLsbD_zero _⟩

theorem nodeWord_two_fields (x : Node) :
    (nodeWord x 2).extractLsb' 0 9 = x.left ∧ (nodeWord x 2).extractLsb' 9 7 = 0 ∧
    (nodeWord x 2).extractLsb' 16 9 = x.right ∧ (nodeWord x 2).extractLsb' 25 7 = 0 := by
  unfold nodeWord
  simp (disch := decide) only [BitVec.extractLsb'_append_eq_of_le, BitVec.extractLsb'_append_eq_of_add_le]
  exact ⟨BitVec.extractLsb'_eq_self, rfl, BitVec.extractLsb'_eq_self, rfl⟩

theorem leafNode_links (v : Word) : (leafNode v).left = 0 ∧ (leafNode v).right = 0 := by
  unfold leafNode
  split <;> exact ⟨rfl, rfl⟩

/-- A leaf of the tree has no links (R33). -/
theorem TreeShape.leaf_links {t : FreqTable} {a : Arena} {k root n : Nat} (h : TreeShape t a k root)
    (hl : (nodeAt a n).leaf = true) : (nodeAt a n).left = 0 ∧ (nodeAt a n).right = 0 := by
  by_cases hn : n < 256
  · rw [h.leaf hn]; exact leafNode_links _
  · by_cases hv : (nodeAt a n).valid = true
    · have := (h.inner hv (by omega)).2.inner
      simp [hl] at this
    · rw [h.empty_of_invalid hv]; exact ⟨rfl, rfl⟩

/-- Outside ERROR the arena is blank or the tree (R14). -/
theorem Inv.blank_or_tree {s : State} (h : Inv s) (he : s.phase ≠ .error) :
    s.node = Vector.replicate 511 emptyNode ∨ TreeShape s.freq s.node s.symcount s.rootIdx.toNat := by
  by_cases hl : s.phase = .load
  · obtain ⟨-, -, -, hnode, -⟩ := h.loadBlank hl
    exact .inl hnode
  · refine .inr (h.treeStands ?_).2
    cases hp : s.phase <;> simp_all [hasTree]

theorem Inv.leaf_links {s : State} (h : Inv s) (he : s.phase ≠ .error) {n : Nat} (hl : (nodeAt s.node n).leaf = true) :
    (nodeAt s.node n).left = 0 ∧ (nodeAt s.node n).right = 0 := by
  rcases h.blank_or_tree he with hb | ht
  · rw [hb, nodeAt_blank]; exact ⟨rfl, rfl⟩
  · exact ht.leaf_links hl

/-- Settles O42, from the layout of `nodeWord`. -/
theorem nodeLayout : Obligations.NodeLayout := by
  unfold Obligations.NodeLayout
  intro s n off w hp he hn hoff
  have hread : s.readWord off = nodeWord (nodeAt s.node n) w := by
    rw [readWord_of_quiet hp he, regAt_node hn hoff]; rfl
  rw [hread]
  refine ⟨?_, ?_, fun h hl => h.leaf_links he hl, ?_, ?_⟩
  · rintro rfl; rfl
  · rintro rfl; exact nodeWord_one_fields _
  · rintro rfl; exact nodeWord_two_fields _
  · rintro rfl; rfl

/-! ### CODE_LEN and CODE_BITS (R35, R36) -/

/-- Bit b of slice j is bit 32·j + b of the code as a number. -/
theorem codeBitsWord_getLsbD (c : Bits) (j : Fin 8) {b : Nat} (hb : b < 32) :
    (codeBitsWord c j).getLsbD b = (bitsVal c).testBit (32 * j.val + b) := by
  have hj := j.isLt
  rw [codeBitsWord, BitVec.getLsbD_extractLsb', BitVec.getLsbD_ofNat]
  simp [hb, show 32 * j.val + b < 256 by omega]

theorem bitsVal_testBit_of_le {c : Bits} {i : Nat} (h : c.length ≤ i) : (bitsVal c).testBit i = false :=
  Nat.testBit_lt_two_pow ((bitsVal_lt c).trans_le (Nat.pow_le_pow_right (by decide) h))

/-- Settles O43: CODE_BITS holds the code as a number, whose bits `bitsVal_testBit` names. -/
theorem codeLayout : Obligations.CodeLayout := by
  unfold Obligations.CodeLayout
  intro s x hp he hlen
  refine ⟨fun off hoff => ?_, fun off j b hoff hb => ?_⟩
  · rw [readWord_of_quiet hp he, regAt_codeLen hoff]
    exact (toNat_zero_append _).trans (Nat.mod_eq_of_lt (by omega))
  · have hread : s.readWord off = codeBitsWord (codeAt s.code x) j := by
      rw [readWord_of_quiet hp he, regAt_codeBits hoff]; rfl
    rw [hread, codeBitsWord_getLsbD _ j hb]
    exact ⟨bitsVal_testBit _ _, bitsVal_testBit_of_le⟩

end Sys2Proof.Machine
end

section
/-! SUPPORT. What a step that starts no new run leaves alone: the first error, the order of the phases, the tables and
the counters (spec/10_state.md R14, R22, R27, R28, R32, R33, R35). -/

namespace Sys2Proof.Machine

/-! ### Which step starts a new run -/

/-- EXEC of CLEAR starts a new run. -/
theorem ne_clear_of_not_clearsNext {s : State} {w : Word} {i : Instr} (hn : ¬s.clearsNext)
    (ha : s.nextAgent = some .engine) (hw : s.cmdPending = some w) (hi : decode w = .ok i) : i ≠ .clear := fun hc =>
  hn (.inl ⟨ha, hw.trans (congrArg some (clearWord_of_decode (hc ▸ hi)))⟩)

/-- A pending word that decodes to a command is the command's own. -/
theorem execsNext_of_decode {s : State} {w : Word} {i : Instr} (ha : s.nextAgent = some .engine)
    (hw : s.cmdPending = some w) (hi : decode w = .ok i) : s.execsNext (encode i) :=
  ⟨ha, by rw [encode_of_decode hi]; exact hw⟩

theorem not_execsNext_of_ne {s : State} (ha : s.nextAgent ≠ some .engine) (w : Word) : ¬s.execsNext w := fun h =>
  ha h.1

theorem not_execsNext_of_none {s : State} (h : s.cmdPending = none) (w : Word) : ¬s.execsNext w := fun hx => by
  have := h.symm.trans hx.2
  simp at this

theorem execsNext_unique {s : State} {v w : Word} (hv : s.execsNext v) (hw : s.execsNext w) : v = w :=
  Option.some.inj (hv.2.symm.trans hw.2)

/-! ### The first error (R22, R105) -/

/-- t reports the error that s reports: the cause and the info are the same, and MULTI is set where it was. -/
def SameError (s t : State) : Prop :=
  t.errCause = s.errCause ∧ t.errInfo = s.errInfo ∧ (s.errMulti = true → t.errMulti = true)

theorem sameError_raise {s : State} (hp : s.phase = .error) (c : Cause) (w : Word) : SameError s (s.raise c w) := by
  rw [raise_of_error hp]
  exact ⟨rfl, rfl, fun _ => rfl⟩

theorem sameError_exec {i : Instr} {s t : State} (hp : s.phase = .error) (hi : i ≠ .clear) (h : exec i s = .next t) :
    SameError s t := by
  rcases exec_cases h with ⟨-, rfl⟩ | ⟨hc, -⟩ | ⟨-, -, -, rfl⟩ | ⟨_, _, -, -, hne, -⟩ | ⟨-, hl, -⟩ | ⟨_, -, ht, -⟩ |
    ⟨_, -, hk, -⟩ | ⟨-, hk, -⟩
  · exact ⟨rfl, rfl, id⟩
  · exact absurd hc hi
  · exact ⟨rfl, rfl, fun _ => rfl⟩
  · exact absurd hp hne
  all_goals simp [hp] at *

theorem sameError_memWrite {s : State} (hp : s.phase = .error) (off : Offset) (v : Word) :
    SameError s (s.memWrite off v) := by
  rcases memWrite_effect s off v with ⟨-, hm⟩ | ⟨c, w, -, hm⟩ | ⟨x, -, -, -, hm⟩ | hm <;> rw [hm]
  · exact ⟨rfl, rfl, id⟩
  · exact sameError_raise hp c w
  · exact ⟨rfl, rfl, id⟩
  · exact ⟨rfl, rfl, id⟩

/-- Settles O31: in ERROR each effect but CLEAR and reset sets MULTI at most. -/
theorem firstErrorIsKept : Obligations.FirstErrorIsKept := by
  unfold Obligations.FirstErrorIsKept
  intro s t h hc hstep hn
  have hp : s.phase = .error := h.errorReported.mpr hc
  show SameError s t
  cases StepEffect.of_step hstep with
  | idle => exact ⟨rfl, rfl, id⟩
  | command ha hw hi ht =>
    exact sameError_exec (s := s.taken) hp (ne_clear_of_not_clearsNext hn ha hw hi) ht
  | illegal => exact sameError_raise (s := s.taken) hp _ _
  | drain => exact ⟨rfl, rfl, id⟩
  | write => exact sameError_memWrite hp _ _
  | read => simp [SameError]
  | reset _ ha hr => exact absurd (.inr ⟨ha, hr⟩) hn

/-! ### The order of the phases (R14, R70) -/

/-- The phase after one step that starts no new run. -/
def PhaseStep (p q : Phase) : Prop :=
  q = p ∨ q = .error ∨ (p = .load ∧ q = .tree) ∨ (p = .tree ∧ q = .coded) ∨ (p = .coded ∧ q = .encode) ∨
    ((p = .coded ∨ p = .encode) ∧ q = .done)

theorem phaseStep_exec {i : Instr} {s t : State} (hi : i ≠ .clear) (h : exec i s = .next t) :
    PhaseStep s.phase t.phase := by
  unfold PhaseStep
  rcases exec_cases h with ⟨-, rfl⟩ | ⟨hc, -⟩ | ⟨-, -, -, rfl⟩ | ⟨_, _, -, -, -, -, rfl⟩ | ⟨-, hp, -, rfl⟩ |
    ⟨_, -, hp, -, rfl⟩ | ⟨_, -, hp | hp, -, rfl⟩ | ⟨-, hp, rfl⟩
  · exact .inl rfl
  · exact absurd hc hi
  · exact .inl rfl
  · exact .inr (.inl (raise_phase _ _ _))
  · exact .inr (.inr (.inl ⟨hp, rfl⟩))
  · exact .inr (.inr (.inr (.inl ⟨hp, rfl⟩)))
  · exact .inr (.inr (.inr (.inr (.inl ⟨hp, rfl⟩))))
  · exact .inl hp.symm
  · exact .inr (.inr (.inr (.inr (.inr ⟨hp, rfl⟩))))

theorem memWrite_phase (s : State) (off : Offset) (v : Word) :
    (s.memWrite off v).phase = s.phase ∨ (s.memWrite off v).phase = .error := by
  rcases memWrite_effect s off v with ⟨-, hm⟩ | ⟨c, w, -, hm⟩ | ⟨x, -, -, -, hm⟩ | hm <;> rw [hm]
  · exact .inl rfl
  · exact .inr (raise_phase s c w)
  · exact .inl rfl
  · exact .inl rfl

/-- Settles O32: a command takes the phases in order, an error enters ERROR, and every other effect keeps the phase. -/
theorem phasesGoForward : Obligations.PhasesGoForward := by
  unfold Obligations.PhasesGoForward
  intro s t hstep hn
  show PhaseStep s.phase t.phase
  cases StepEffect.of_step hstep with
  | idle => exact .inl rfl
  | command ha hw hi ht => exact phaseStep_exec (s := s.taken) (ne_clear_of_not_clearsNext hn ha hw hi) ht
  | illegal => exact .inr (.inl (raise_phase _ _ _))
  | drain => exact .inl rfl
  | write => exact (memWrite_phase s _ _).imp id .inl
  | read off => exact .inl (afterRead_phase s off)
  | reset _ ha hr => exact absurd (.inr ⟨ha, hr⟩) hn

/-! ### The tables (R32, R33, R35) -/

/-- NODE, ROOT and SYMCOUNT of t are those of s. -/
def SameTree (s t : State) : Prop :=
  t.node = s.node ∧ t.rootValid = s.rootValid ∧ t.rootIdx = s.rootIdx ∧ t.symcount = s.symcount

/-- BUILD alone writes the tree, GEN alone the codes, and no command but CLEAR writes FREQ. -/
theorem tables_exec {i : Instr} {s t : State} (hi : i ≠ .clear) (h : exec i s = .next t) :
    ((i = .build ∧ s.phase = .load) ∨ SameTree s t) ∧ ((i = .gen ∧ s.phase = .tree) ∨ t.code = s.code) ∧
      t.freq = s.freq := by
  unfold SameTree
  rcases exec_cases h with ⟨-, rfl⟩ | ⟨hc, -⟩ | ⟨-, -, -, rfl⟩ | ⟨_, _, -, -, -, -, rfl⟩ | ⟨hb, hp, -, rfl⟩ |
    ⟨_, hg, hp, -, rfl⟩ | ⟨_, -, -, -, rfl⟩ | ⟨-, -, rfl⟩
  case inr.inl => exact absurd hc hi
  case inr.inr.inr.inr.inl => exact ⟨.inl ⟨hb, hp⟩, .inr rfl, rfl⟩
  case inr.inr.inr.inr.inr.inl => exact ⟨.inr ⟨rfl, rfl, rfl, rfl⟩, .inl ⟨hg, hp⟩, rfl⟩
  all_goals exact ⟨.inr (by simp), .inr (by simp), by simp⟩

theorem freqAt_set (t : FreqTable) (x y : Byte) (v : Word) :
    freqAt (t.set x.toNat v x.isLt) y = if y = x then v else freqAt t y := by
  unfold freqAt
  rw [Vector.getElem_set]
  by_cases h : y = x
  · simp [h]
  · rw [if_neg h, if_neg fun hxy => h (BitVec.eq_of_toNat_eq hxy.symm)]

/-- The offset of FREQ[x] is the one R17 gives it. -/
theorem toNat_of_regAt_freq {off : Offset} {x : Byte} (ha : off.toNat % 4 = 0) (h : regAt off = .freq x) :
    off.toNat = 0x0400 + 4 * x.toNat := by
  rcases regAt_cases off with ⟨-, hr⟩ | ⟨hl, hu, -⟩ | ⟨-, -, y, hr⟩ | ⟨-, -, y, j, hr⟩ | ⟨-, -, n, w, hr⟩ | ⟨-, hr⟩
  case inr.inl =>
    have hx : off.toNat = 0x0400 + 4 * (BitVec.ofNat 8 ((off.toNat - 0x0400) / 4)).toNat := by
      rw [BitVec.toNat_ofNat, Nat.mod_eq_of_lt (by omega)]
      omega
    rw [regAt_freq hx, Reg.freq.injEq] at h
    subst h
    exact hx
  case inl =>
    rw [hr] at h
    unfold controlReg at h
    split at h <;> simp at h
  all_goals simp [hr] at h

/-- A write changes FREQ only in LOAD with BUSY = 0, at the one entry its offset names (R50). -/
theorem freq_memWrite (s : State) {off : Offset} (ha : off.toNat % 4 = 0) (v : Word) :
    (s.phase = .load ∧ s.busy = false ∧ ∃ x : Byte, off.toNat = 0x0400 + 4 * x.toNat ∧
      ∀ y, freqAt (s.memWrite off v).freq y = if y = x then v else freqAt s.freq y) ∨
    (s.memWrite off v).freq = s.freq := by
  rcases memWrite_effect s off v with ⟨-, hm⟩ | ⟨c, w, -, hm⟩ | ⟨x, hx, hb, hp, hm⟩ | hm <;> rw [hm]
  · exact .inr rfl
  · exact .inr (raise_freq s c w)
  · exact .inl ⟨hp, hb, x, toNat_of_regAt_freq ha hx, fun y => freqAt_set s.freq x y v⟩
  · exact .inr rfl

/-- Settles O58: NODE, ROOT, SYMCOUNT and CODE change by a command alone, FREQ by a Host write alone. -/
theorem tablesChangeByCommandOnly : Obligations.TablesChangeByCommandOnly := by
  unfold Obligations.TablesChangeByCommandOnly
  intro s t hstep hn
  show (_ ∨ SameTree s t) ∧ _
  cases StepEffect.of_step hstep with
  | idle => exact ⟨.inr ⟨rfl, rfl, rfl, rfl⟩, .inr rfl, .inr rfl⟩
  | command ha hw hi ht =>
    have hne := ne_clear_of_not_clearsNext hn ha hw hi
    have hx := execsNext_of_decode ha hw hi
    obtain ⟨htree, hcode, hfreq⟩ := tables_exec (s := s.taken) hne ht
    refine ⟨htree.imp ?_ id, hcode.imp ?_ id, .inr hfreq⟩
    · rintro ⟨rfl, hp⟩; exact ⟨hx, hp⟩
    · rintro ⟨rfl, hp⟩; exact ⟨hx, hp⟩
  | illegal =>
    exact ⟨.inr (by simp [SameTree, State.taken]), .inr (by simp [State.taken]), .inr (by simp [State.taken])⟩
  | drain => exact ⟨.inr ⟨rfl, rfl, rfl, rfl⟩, .inr rfl, .inr rfl⟩
  | @write off v _ ha hw hoff =>
    refine ⟨.inr (by simp [SameTree]), .inr (by simp), (freq_memWrite s hoff v).imp ?_ id⟩
    rintro ⟨hp, hb, x, hx, hf⟩
    exact ⟨ha, hp, hb, off, x, v, hw, hx, hf⟩
  | read => exact ⟨.inr (by simp [SameTree]), .inr (by simp), .inr (by simp)⟩
  | reset _ ha hr => exact absurd (.inr ⟨ha, hr⟩) hn

/-! ### The counters (R27, R28, R111) -/

/-- IN_COUNT goes up by 1 exactly at an ENC that raises no error (R27). -/
theorem inCount_exec {i : Instr} {s t : State} (hi : i ≠ .clear) (h : exec i s = .next t) :
    (t.inCount = s.inCount + 1 ∧ t.phase = .encode ∧ ∃ x, i = .enc x) ∨
    (t.inCount = s.inCount ∧ ((∃ x, i = .enc x) → t.phase = .error)) := by
  rcases exec_cases h with ⟨rfl, rfl⟩ | ⟨hc, -⟩ | ⟨-, -, hp, rfl⟩ | ⟨_, _, -, -, -, -, rfl⟩ | ⟨rfl, -, -, rfl⟩ |
    ⟨_, rfl, -, -, rfl⟩ | ⟨x, hx, -, -, rfl⟩ | ⟨rfl, -, rfl⟩
  · exact .inr ⟨rfl, by simp⟩
  · exact absurd hc hi
  · exact .inr ⟨rfl, fun _ => hp⟩
  · exact .inr ⟨raise_inCount _ _ _, fun _ => raise_phase _ _ _⟩
  · exact .inr ⟨rfl, by simp⟩
  · exact .inr ⟨rfl, by simp⟩
  · exact .inl ⟨rfl, rfl, x, hx⟩
  · exact .inr ⟨rfl, by simp⟩

theorem raise_fifo_length_le (s : State) (c : Cause) (w : Word) : (s.raise c w).fifo.length ≤ s.fifo.length := by
  unfold State.raise
  split
  · exact le_rfl
  · exact Nat.zero_le _

/-- No command pushes a byte: DRAIN alone does (R28). -/
theorem outCount_exec {i : Instr} {s t : State} (hi : i ≠ .clear) (h : exec i s = .next t) :
    t.outCount = s.outCount ∧ t.fifo.length ≤ s.fifo.length := by
  rcases exec_cases h with ⟨-, rfl⟩ | ⟨hc, -⟩ | ⟨-, -, -, rfl⟩ | ⟨_, _, -, -, -, -, rfl⟩ | ⟨-, -, -, rfl⟩ |
    ⟨_, -, -, -, rfl⟩ | ⟨_, -, -, -, rfl⟩ | ⟨-, -, rfl⟩
  case inr.inl => exact absurd hc hi
  case inr.inr.inr.inl => exact ⟨raise_outCount _ _ _, raise_fifo_length_le _ _ _⟩
  all_goals exact ⟨rfl, le_rfl⟩

theorem memWrite_fifo_length_le (s : State) (off : Offset) (v : Word) :
    (s.memWrite off v).fifo.length ≤ s.fifo.length := by
  rcases memWrite_effect s off v with ⟨-, hm⟩ | ⟨c, w, -, hm⟩ | ⟨x, -, -, -, hm⟩ | hm <;> rw [hm]
  exact raise_fifo_length_le s c w

theorem afterRead_fifo_length_le (s : State) (off : Offset) : (s.afterRead off).fifo.length ≤ s.fifo.length := by
  rcases afterRead_cases s off with ⟨-, -, hr⟩ | ⟨-, -, hr⟩ | ⟨-, -, -, hr⟩ <;> rw [hr]
  exact List.length_tail ▸ Nat.sub_le _ _

/-- The word 0x04000000 + x, pending together with the word of a command, makes the command ENC x. -/
theorem eq_enc_of_execsNext {s : State} {i : Instr} {x : Byte} (hi : s.execsNext (encode i))
    (hx : s.execsNext (0x04000000 + x.setWidth 32)) : i = .enc x := by
  have hword : encode i = encode (.enc x) := (execsNext_unique hi hx).trans (encode_enc x).symm
  have hdec := decode_encode i
  rw [hword, decode_encode] at hdec
  exact (Except.ok.inj hdec).symm

/-- Settles O59: ENC alone counts in IN_COUNT and DRAIN alone in OUT_COUNT; a new run zeroes both. -/
theorem countersCount : Obligations.CountersCount := by
  unfold Obligations.CountersCount
  intro s t hstep
  refine ⟨fun hc => ?_, fun hn => ?_, fun hn => ?_⟩
  · rcases step_of_clearsNext hc with h | ⟨x, h⟩ <;> rw [h] at hstep <;> cases hstep <;> exact ⟨rfl, rfl⟩
  · cases StepEffect.of_step hstep with
    | idle ha => exact .inr ⟨rfl, fun ⟨x, hx⟩ => absurd hx (not_execsNext_of_ne (by simp [ha]) _)⟩
    | command ha hw hi ht =>
      have hx := execsNext_of_decode ha hw hi
      refine (inCount_exec (s := s.taken) (ne_clear_of_not_clearsNext hn ha hw hi) ht).imp ?_ ?_
      · rintro ⟨hcount, hp, x, rfl⟩
        exact ⟨hcount, hp, x, encode_enc x ▸ hx⟩
      · rintro ⟨hcount, hp⟩
        exact ⟨hcount, fun ⟨x, hx'⟩ => hp ⟨x, eq_enc_of_execsNext hx hx'⟩⟩
    | illegal => exact .inr ⟨by simp [State.taken], fun _ => raise_phase _ _ _⟩
    | drain _ hw => exact .inr ⟨rfl, fun ⟨x, hx⟩ => absurd hx (not_execsNext_of_none hw _)⟩
    | write _ ha => exact .inr ⟨by simp, fun ⟨x, hx⟩ => absurd hx (not_execsNext_of_ne (by simp [ha]) _)⟩
    | read _ _ ha => exact .inr ⟨by simp, fun ⟨x, hx⟩ => absurd hx (not_execsNext_of_ne (by simp [ha]) _)⟩
    | reset _ ha hr => exact absurd (.inr ⟨ha, hr⟩) hn
  · cases StepEffect.of_step hstep with
    | idle => exact .inr ⟨rfl, le_rfl⟩
    | command ha hw hi ht => exact .inr (outCount_exec (s := s.taken) (ne_clear_of_not_clearsNext hn ha hw hi) ht)
    | illegal => exact .inr ⟨by simp [State.taken], raise_fifo_length_le s.taken _ _⟩
    | drain => exact .inl ⟨rfl, by simp⟩
    | write => exact .inr ⟨by simp, memWrite_fifo_length_le s _ _⟩
    | read => exact .inr ⟨by simp, afterRead_fifo_length_le s _⟩
    | reset _ ha hr => exact absurd (.inr ⟨ha, hr⟩) hn

end Sys2Proof.Machine
end

section
/-! SUPPORT. What BUILD and GEN leave in the tables: the properties of the tree and the lengths of the codes
(spec/41_tree_builder.md R75 to R81, spec/42_code_generator.md R84, R86). -/

namespace Sys2Proof.Machine

/-! ### BUILD -/

/-- Settles O11: BUILD's effect is `exec_build`, and its leaves are those of the tree's shape. -/
theorem buildCompletes : Obligations.BuildCompletes := by
  unfold Obligations.BuildCompletes
  rintro s hp ⟨x, hx⟩
  have hk := symbolsOf_ne_nil hx
  exact ⟨_, exec_build hp hk, rfl, rfl, rfl, symbolsOf_length s.freq, (buildTree_shape_rootIdx hk).leaves⟩

theorem TreeShape.valid_iff {t : FreqTable} {a : Arena} {k root n : Nat} (h : TreeShape t a k root) (hn : 256 ≤ n) :
    (nodeAt a n).valid = true ↔ n < 255 + k := by
  refine ⟨fun hv => (h.inner hv hn).1, fun hlt => ?_⟩
  obtain ⟨m, rfl⟩ : ∃ m, n = 256 + m := ⟨n - 256, by omega⟩
  exact (h.merges m (by omega)).valid

/-- A child is the one that some bit of a code leads to (R82). -/
theorem child_iff {a : Arena} {c n : Nat} :
    (leftOf a c = n ∨ rightOf a c = n) ↔ ∃ b : Bool, (if b then rightOf a c else leftOf a c) = n := by
  simp [Bool.exists_bool]

/-- Every valid node but the root is a child of exactly one internal node (R81 item 3). -/
theorem TreeShape.unique_parent {t : FreqTable} {a : Arena} {k root n : Nat} (h : TreeShape t a k root)
    (hv : (nodeAt a n).valid = true) (hn : n ≠ root) :
    ∃ c, (256 ≤ c ∧ (nodeAt a c).valid = true ∧ (leftOf a c = n ∨ rightOf a c = n)) ∧
      ∀ c', 256 ≤ c' → (nodeAt a c').valid = true → (leftOf a c' = n ∨ rightOf a c' = n) → c' = c := by
  obtain ⟨c, b, hc, -, hcv, he⟩ := h.parent_exists hv hn
  refine ⟨c, ⟨hc, hcv, child_iff.mpr ⟨b, he⟩⟩, fun c' hc' hcv' hkid => ?_⟩
  obtain ⟨b', he'⟩ := child_iff.mp hkid
  exact (h.parent_unique hcv' hcv hc' hc (he'.trans he.symm)).1

/-- An internal node has two distinct valid children in slots before its own (R81 items 4 and 5). -/
theorem MergeOk.children {a : Arena} {c : Nat} (h : MergeOk a c) :
    leftOf a c ≠ rightOf a c ∧ (nodeAt a (leftOf a c)).valid = true ∧ (nodeAt a (rightOf a c)).valid = true ∧
      leftOf a c < c ∧ rightOf a c < c := by
  obtain ⟨⟨hlv, hll, -⟩, -⟩ := h.left
  obtain ⟨⟨⟨hrv, hrl, -⟩, hne⟩, -⟩ := h.right
  exact ⟨hne.symm, hlv, hrv, hll, hrl⟩

/-- Every F is the sum of the frequencies of the leaves below (R79, R81 item 6). -/
theorem TreeShape.freqOf_eq_weightBelow {t : FreqTable} {a : Arena} {k root : Nat} (h : TreeShape t a k root)
    (d n : Nat) (hv : (nodeAt a n).valid = true) (hn : n < d) : freqOf a n = weightBelow t a d n := by
  induction d generalizing n with
  | zero => omega
  | succ d ih =>
    unfold weightBelow
    by_cases hl : n < 256
    · rw [if_pos ((h.grounded.leaf n hv).mpr hl), freqOf, h.leaf hl, leafNode_f]
    · have hM := (h.inner hv (by omega)).2
      obtain ⟨-, hlv, hrv, hll, hrl⟩ := hM.children
      rw [if_neg (by simp [hM.inner]), hM.sum, ih _ hlv (by omega), ih _ hrv (by omega)]

/-- Settles O14: each item of R81 is a property of the tree's shape. -/
theorem buildMakesFullTree : Obligations.BuildMakesFullTree := by
  unfold Obligations.BuildMakesFullTree
  rintro s hp ⟨x, hx⟩
  have hk := symbolsOf_ne_nil hx
  have h := buildTree_shape_rootIdx hk
  refine ⟨_, exec_build hp hk, symbolsOf_length s.freq, h.count_le, fun n hn => h.valid_iff hn,
    fun n hv hn => h.unique_parent hv hn, fun c hc hv => ⟨?_, ?_⟩, fun n hv => ⟨fun hn => ?_, fun hn => ?_⟩,
    fun n hv => ?_⟩
  · exact h.root_no_parent (b := false) hv hc
  · exact h.root_no_parent (b := true) hv hc
  · have hleaf := (h.grounded.leaf n hv).mpr hn
    exact ⟨hleaf, h.leaf_links hleaf⟩
  · have hM := (h.inner hv hn).2
    exact ⟨hM.inner, hM.children⟩
  · have hlt : n < 511 := by
      have hk := h.count_le
      by_cases hn : n < 256
      · omega
      · have := (h.valid_iff (by omega)).mp hv
        omega
    exact h.freqOf_eq_weightBelow 511 n hv hlt

/-! ### GEN -/

/-- GEN in TREE writes the code table of the tree (R85). -/
theorem exec_gen {s : State} {c : CodeTable} (hp : s.phase = .tree) (hc : codesOf s = some c) :
    exec .gen s = .next { s with code := c, phase := .coded } := by
  simp [exec, execGen, guarded, hp, phaseError, runGen, hc]

/-- Exactly the symbols with a non-zero frequency have a code (R86 item 2). -/
theorem codesMatch.ne_nil_iff {s : State} (hm : codesMatch s) (h : TreeShape s.freq s.node s.symcount s.rootIdx.toNat)
    (x : Byte) : codeAt s.code x ≠ [] ↔ freqAt s.freq x ≠ 0 :=
  ⟨fun hne hx => hne ((hm x).1 hx), (hm.length h x).2⟩

/-- As many codes are not empty as frequencies are not 0. -/
theorem countP_code {c : CodeTable} {t : FreqTable} (h : ∀ x, codeAt c x ≠ [] ↔ freqAt t x ≠ 0) :
    (c.toList.countP fun p => p ≠ []) = symbolCount t := by
  have hmap : (c.toList.map fun p => decide (p ≠ [])) = t.toList.map fun v => decide (v ≠ 0) := by
    refine List.ext_getElem (by simp) fun i hi hi' => ?_
    have hlt : i < 256 := by simpa using hi
    have hx := not_iff_not.mp (h (BitVec.ofNat 8 i))
    simp only [codeAt, freqAt, BitVec.toNat_ofNat, Nat.mod_eq_of_lt (show i < 2 ^ 8 from hlt)] at hx
    simpa using hx
  calc (c.toList.countP fun p => p ≠ [])
      = (c.toList.map fun p => decide (p ≠ [])).countP id := by rw [List.countP_map]; rfl
    _ = (t.toList.map fun v => decide (v ≠ 0)).countP id := by rw [hmap]
    _ = symbolCount t := by rw [List.countP_map]; rfl

/-- Settles O18, from the lengths of the tree's codes. -/
theorem codeLengths : Obligations.CodeLengths := by
  unfold Obligations.CodeLengths
  intro s h hp
  have hshape := (h.treeStands (by rw [hp]; rfl)).2
  obtain ⟨c, hc, hm⟩ := codesOf_spec hshape
  have hcoded := hm.ne_nil_iff hshape
  exact ⟨_, exec_gen hp hc, fun x => ⟨(hm.length hshape x).1, hcoded x⟩, (countP_code hcoded).trans hshape.count.symm⟩

end Sys2Proof.Machine
end

section
/-! SUPPORT. Proofs of the statements of spec/20_memory.md about one access: the write rule of FREQ, the reads with and
without side effect, the accesses that are refused, and one Host step as one access (R44 to R52, R66). -/

namespace Sys2Proof.Machine

/-! ### Writes to FREQ and elsewhere (R49, R50, R52) -/

theorem memWrite_freq {s : State} {off : Offset} {x : Byte} (h : off.toNat = 0x0400 + 4 * x.toNat) (v : Word) :
    s.memWrite off v = s.freqWrite x off v := by
  simp only [State.memWrite, regAt_freq h]

/-- Settles O34: the three outcomes of `freqWrite_cases`; both errors are the error entry of R105. -/
theorem freqWriteRule : Obligations.FreqWriteRule := by
  unfold Obligations.FreqWriteRule
  intro s x off v hoff
  rw [memWrite_freq hoff]
  rcases freqWrite_cases s x off v with ⟨hb, hw⟩ | ⟨hb, hp, hw⟩ | ⟨hb, hp, hw⟩ <;> rw [hw]
  · exact ⟨fun _ he => raise_of_ne he _ _, fun hb' => by simp [hb] at hb', fun he => raise_of_error he _ _,
      fun hb' => by simp [hb] at hb'⟩
  · exact ⟨fun hb' => by simp [hb] at hb', fun _ _ he => raise_of_ne he _ _, fun he => raise_of_error he _ _,
      fun _ hp' => absurd hp' hp⟩
  · exact ⟨fun hb' => by simp [hb] at hb', fun _ hp' => absurd hp hp', fun he => by simp [hp] at he,
      fun _ _ => ⟨rfl, fun y => freqAt_set s.freq x y v⟩⟩

/-- A write elsewhere than CMD and FREQ is ignored (R49). -/
theorem memWrite_elsewhere (s : State) {off : Offset} (ha : off.toNat % 4 = 0) (hcmd : off ≠ 0x0004)
    (hfreq : ¬(0x0400 ≤ off.toNat ∧ off.toNat ≤ 0x07FC)) (v : Word) : s.memWrite off v = s := by
  rcases memWrite_cases s off v with ⟨hr, -⟩ | ⟨x, hr, -⟩ | ⟨-, -, hm⟩
  · exact absurd (eq_of_regAt_eq_controlReg (c := 0x0004) hr (by decide)) hcmd
  · have hoff := toNat_of_regAt_freq ha hr
    have hx := x.isLt
    omega
  · exact hm

/-! ### Reads of OUT_DATA and elsewhere (R51, R52) -/

theorem regAt_eq_outData (off : Offset) : regAt off = .outData ↔ off = 0x0028 :=
  ⟨fun h => eq_of_regAt_eq_controlReg (c := 0x0028) h (by decide), fun h => h ▸ rfl⟩

/-- A read of OUT_DATA is never a draw: it returns the register and pops (R40, R51). -/
theorem read_outData (s : State) :
    s.readWord 0x0028 = outDataWord s ∧ s.afterRead 0x0028 = { s with fifo := s.fifo.tail } := by
  have hd : isDraw s .outData = false := by simp [isDraw, drawnWhilePending, drawnInError]
  rcases afterRead_cases s 0x0028 with ⟨hd', -⟩ | ⟨-, hr⟩ | ⟨-, hne, -⟩
  · exact absurd (hd.symm.trans hd') (by decide)
  · exact hr
  · exact absurd rfl hne

theorem afterRead_elsewhere (s : State) {off : Offset} (hoff : off ≠ 0x0028) :
    s.afterRead off = { s with draws := (s.afterRead off).draws } := by
  rcases afterRead_cases s off with ⟨-, -, hr⟩ | ⟨ho, -⟩ | ⟨-, -, -, hr⟩
  · rw [hr]
  · exact absurd ((regAt_eq_outData off).mp ho) hoff
  · rw [hr]

theorem outDataWord_of_cons {s : State} {b : Byte} {rest : List Byte} (h : s.fifo = b :: rest) :
    outDataWord s = b.setWidth 32 + 0x00000100 := by
  have hbyte : ∀ x : Byte, (0 : BitVec 23) ++ bit true ++ x = x.setWidth 32 + 0x00000100 := by decide
  rw [outDataWord, h]
  exact hbyte b

theorem outDataWord_of_nil {s : State} (h : s.fifo = []) : outDataWord s = 0 := by
  rw [outDataWord, h]

/-- DATA of OUT_DATA is the oldest byte, or 0 (R29). -/
theorem outDataWord_data (s : State) : (outDataWord s).extractLsb' 0 8 = s.fifo.headD 0 := by
  unfold outDataWord
  cases s.fifo with
  | nil => rfl
  | cons b rest => exact (BitVec.extractLsb'_append_eq_of_add_le (by decide)).trans BitVec.extractLsb'_eq_self

/-- Settles O35, from the value and the effect of a read of OUT_DATA. -/
theorem outDataReadPops : Obligations.OutDataReadPops := by
  unfold Obligations.OutDataReadPops
  intro s
  obtain ⟨hword, hafter⟩ := read_outData s
  rw [hword, hafter]
  refine ⟨fun b rest hf => ⟨outDataWord_of_cons hf, by rw [hf]; rfl⟩, fun hf => ⟨outDataWord_of_nil hf, ?_⟩⟩
  rw [hf, List.tail_nil, ← hf]

/-- Settles O36: writes by `memWrite_elsewhere`, reads by `afterRead_cases`; CMD is a register that is never drawn. -/
theorem onlyThreeSideEffects : Obligations.OnlyThreeSideEffects := by
  unfold Obligations.OnlyThreeSideEffects
  intro s off ha
  refine ⟨fun v hcmd hfreq => memWrite_elsewhere s ha hcmd hfreq v, fun hoff hd => ?_, ?_⟩
  · rcases afterRead_cases s off with ⟨hd', -⟩ | ⟨ho, -⟩ | ⟨-, -, -, hr⟩
    · simp [hd] at hd'
    · exact absurd ((regAt_eq_outData off).mp ho) hoff
    · exact ⟨hr, by rw [hr]⟩
  · rintro rfl
    obtain ⟨hword, hafter⟩ := readWord_of_fixed (s := s) (off := 0x0004) rfl
    exact ⟨hword, hafter (by decide)⟩

/-! ### Which accesses are refused (R44, R45) -/

theorem admitted_iff (off : Offset) (size : Nat) : admitted off size = true ↔ size = 4 ∧ off.toNat % 4 = 0 := by
  simp [admitted]

/-- An admitted operation is refused in no state. -/
theorem hostOp_total {op : HostOp} (h : op.wf = true) (s : State) : ∃ t, hostOp op s = .next t := by
  cases op with
  | wr off size v => exact ⟨_, if_pos h⟩
  | rd off size name => exact ⟨_, if_pos h⟩
  | wait | popall | popToOut | reset => exact ⟨_, rfl⟩

/-- Settles O44: `admitted` is the one check of a Host operation. -/
theorem unadmittedAccessIsRefused : Obligations.UnadmittedAccessIsRefused := by
  unfold Obligations.UnadmittedAccessIsRefused
  refine fun s off size => ⟨fun h => ?_, fun op hop => hostOp_total hop s⟩
  have hna : ¬admitted off size = true := by rw [admitted_iff]; tauto
  exact ⟨fun v => if_neg hna, fun name => if_neg hna⟩

/-! ### One Host step is one access (R48, R65, R66) -/

/-- A Host write acts on the HTB, and the record gains the access. -/
theorem hostWrite_withHost (s : State) (a : List Agent) (h : HostState) (off : Offset) (v : Word) :
    hostWrite off v (s.withHost a h) =
      (s.memWrite off v).withHost a { h with trace := h.trace ++ [.write off v] } := by
  rw [hostWrite, memWrite_withHost]
  rfl

/-- A Host read acts on the HTB, and the Host gains the binding and the access. -/
theorem hostRead_withHost (s : State) (a : List Agent) (h : HostState) (off : Offset) (name : String) :
    hostRead off name (s.withHost a h) = (s.afterRead off).withHost a { h with
      vars := (name, s.readWord off) :: h.vars
      trace := h.trace ++ [.read off (s.readWord off)] } := by
  rw [hostRead, afterRead_withHost]
  rfl

/-- Settles O45: the Host's operation is its access, on the state with the operation taken off the program. -/
theorem hostAccessSteps : Obligations.HostAccessSteps := by
  unfold Obligations.HostAccessSteps
  intro s rest off ha hoff
  have hadm : admitted off 4 = true := (admitted_iff off 4).mpr ⟨rfl, hoff⟩
  refine ⟨fun v hp => ⟨_, ?_, rfl⟩, fun name hp => ⟨_, ?_, rfl⟩⟩
  · rw [step_of_hostOp ha hp, hostOp, if_pos hadm, hostWrite_withHost]
  · rw [step_of_hostOp ha hp, hostOp, if_pos hadm, hostRead_withHost]

/-- Settles O48: the read of OUT_DATA, then its DATA at the end of OUT. -/
theorem popAppendsToOut : Obligations.PopAppendsToOut := by
  unfold Obligations.PopAppendsToOut
  intro s rest ha hp
  refine ⟨_, (step_of_hostOp ha hp).trans (congrArg (fun t => Host.Outcome.next (State.emit t _))
    (hostRead_withHost s _ _ outDataOff "b")), rfl, ?_, rfl⟩
  show s.host.out ++ [(s.readWord 0x0028).extractLsb' 0 8] = _
  rw [(read_outData s).1, outDataWord_data]

end Sys2Proof.Machine
end

section
/-! SUPPORT. Progress: from a state of the invariant no agent stops at a fault, and an admitted program stays admitted
(spec/20_memory.md R45, spec/42_code_generator.md R85, spec/70_reset_and_hazards.md R120). -/

namespace Sys2Proof.Machine

/-! ### The Engine always answers a next state (R85) -/

/-- GEN is the one command that could stop, and in TREE the arena is a tree (R81, R85). -/
theorem runGen_total {s : State} (h : Inv s) (hp : s.phase = .tree) : ∃ t, runGen s = .next t := by
  obtain ⟨c, hc, -⟩ := codesOf_spec (h.treeStands (by rw [hp]; rfl)).2
  exact ⟨{ s with code := c, phase := .coded }, by rw [runGen, hc]⟩

theorem guarded_total {i : Instr} {s : State} {run : State → Result}
    (h : phaseError i s.phase = none → ∃ t, run s = .next t) : ∃ t, guarded i s run = .next t := by
  rcases guarded_cases i s run with ⟨-, hg⟩ | ⟨c, -, -, hg⟩ | ⟨-, hc, hg⟩ <;> rw [hg]
  · exact ⟨_, rfl⟩
  · exact ⟨_, rfl⟩
  · exact h hc

theorem exec_total {s : State} (h : Inv s) (i : Instr) : ∃ t, exec i s = .next t := by
  cases i with
  | nop | clear => exact ⟨_, rfl⟩
  | build => exact guarded_total fun _ => by unfold runBuild; split <;> exact ⟨_, rfl⟩
  | gen => exact guarded_total fun hc => runGen_total h (phaseError_gen hc)
  | enc x => exact guarded_total fun _ => by unfold runEnc; split <;> exact ⟨_, rfl⟩
  | flush => exact guarded_total fun _ => ⟨_, rfl⟩

theorem engineStep_total {s : State} (h : Inv s) : ∃ t, engineStep s = .next t := by
  unfold engineStep
  split
  · unfold execWord
    split
    · exact exec_total (s := { s with cmdPending := none }) { h with pendingDrained := fun _ hw => by cases hw } _
    · exact ⟨_, rfl⟩
  · split <;> exact ⟨_, rfl⟩

/-! ### The Host's program (R45) -/

theorem exec_host {i : Instr} {s t : State} (h : exec i s = .next t) : t.host = s.host := by
  rcases exec_cases h with ⟨-, rfl⟩ | ⟨-, rfl⟩ | ⟨-, -, -, rfl⟩ | ⟨_, _, -, -, -, -, rfl⟩ | ⟨-, -, -, rfl⟩ |
    ⟨_, -, -, -, rfl⟩ | ⟨_, -, -, -, rfl⟩ | ⟨-, -, rfl⟩ <;> simp

theorem engineStep_host {s t : State} (h : engineStep s = .next t) : t.host = s.host := by
  rcases engineStep_cases h with ⟨_, _, -, -, he⟩ | ⟨_, _, -, -, rfl⟩ | ⟨-, -, rfl⟩ | ⟨-, -, rfl⟩
  · exact (exec_host he).trans rfl
  · exact raise_host _ _ _
  · exact drain_host s
  · rfl

theorem progWf_waitNext (w : Word) : progWf (waitNext w) = true := by
  unfold waitNext; split <;> split <;> rfl

theorem progWf_popallNext (w : Word) : progWf (popallNext w) = true := by
  unfold popallNext
  split
  · rfl
  · split <;> rfl

theorem progWf_append (p q : List HostOp) : progWf (p ++ q) = (progWf p && progWf q) := List.all_append

/-- What an operation puts before the rest of the program is admitted: `wait` and `popall` unfold to admitted ones. -/
theorem hostOp_progWf {op : HostOp} {s t : State} (h : hostOp op s = .next t) (hp : progWf s.host.prog = true) :
    progWf t.host.prog = true := by
  rcases hostOp_cases h with ⟨off, v, -, -, rfl⟩ | ⟨off, name, -, -, rfl⟩ | ⟨-, rfl⟩ | ⟨-, rfl⟩ | ⟨-, rfl⟩ | ⟨-, rfl⟩
  · simpa [hostWrite] using hp
  · simpa [hostRead] using hp
  · simpa [hostRead, progWf_append, progWf_waitNext] using hp
  · simpa [hostRead, progWf_append, progWf_popallNext] using hp
  · simpa [hostRead] using hp
  · simpa using hp

theorem progWf_cons {op : HostOp} {rest : List HostOp} :
    progWf (op :: rest) = true ↔ op.wf = true ∧ progWf rest = true := by
  simp [progWf]

/-! ### One step -/

theorem step_total {s : State} (h : Inv s) (hp : progWf s.host.prog = true) : ∃ t, step s = .next t := by
  cases ha : s.nextAgent with
  | none => exact ⟨s, step_of_none ha⟩
  | some agent =>
    cases agent with
    | engine => exact step_of_engine ha ▸ engineStep_total { h with }
    | host =>
      cases hprog : s.host.prog with
      | nil => exact absurd ((nextAgent_ready s).1 ha) (by simp [State.hostReady, hprog])
      | cons op rest =>
        rw [step_of_hostOp ha hprog]
        exact hostOp_total (progWf_cons.mp (hprog ▸ hp)).1 _

theorem step_progWf {s t : State} (h : step s = .next t) (hp : progWf s.host.prog = true) :
    progWf t.host.prog = true := by
  rcases step_cases h with ⟨-, rfl⟩ | ⟨-, he⟩ | ⟨op, rest, -, hprog, ho⟩
  · exact hp
  · rw [engineStep_host he]; exact hp
  · exact hostOp_progWf ho (progWf_cons.mp (hprog ▸ hp)).2

/-- Settles O56: progress by `step_total`; every step keeps the invariant and the program admitted. -/
theorem admittedRunsNeverStop : Obligations.AdmittedRunsNeverStop := by
  unfold Obligations.AdmittedRunsNeverStop
  intro s h hp
  obtain ⟨t, ht⟩ := step_total h hp
  exact ⟨t, ht, invariantKeptByStep s t h ht, step_progWf ht hp⟩

end Sys2Proof.Machine
end

section
/-! SUPPORT. The bit stream: what each step does to the bits of FIFO and BITBUF and to the bytes the Host popped
(spec/20_memory.md R51, spec/43_bit_encoder.md R87, R88, R89, R93). -/

namespace Sys2Proof.Machine

/-! ### Commands (R87, R88) -/

theorem stream_length (s : State) : s.stream.length = 8 * s.fifo.length + s.bitbuf.length := by
  have hsum : ∀ l : List Byte, (l.flatMap byteBits).length = 8 * l.length := fun l => by
    induction l with
    | nil => rfl
    | cons b rest ih => rw [List.flatMap_cons, List.length_append, byteBits_length, ih, List.length_cons]; omega
  rw [State.stream, List.length_append, hsum]

/-- The padding of the last byte depends on the stream alone (R88). -/
theorem padOf_eq {s : State} (h : s.bitbuf.length ≤ 7) : padOf s.bitbuf.length = (8 - s.stream.length % 8) % 8 := by
  rw [stream_length, padOf]
  split <;> omega

/-- ENC and FLUSH alone add to the stream, where no error is raised. -/
theorem stream_exec {i : Instr} {s t : State} (hi : i ≠ .clear) (h : exec i s = .next t) (ht : t.phase ≠ .error) :
    (∀ x, i = .enc x → t.stream = s.stream ++ codeAt s.code x) ∧
    (i = .flush → t.pad = padOf s.bitbuf.length ∧ t.stream = s.stream ++ List.replicate t.pad false) ∧
    ((∀ x, i ≠ .enc x) → i ≠ .flush → t.stream = s.stream) := by
  rcases exec_cases h with ⟨rfl, rfl⟩ | ⟨hc, -⟩ | ⟨-, -, hp, rfl⟩ | ⟨_, _, -, -, -, -, rfl⟩ | ⟨rfl, -, -, rfl⟩ |
    ⟨_, rfl, -, -, rfl⟩ | ⟨x, rfl, -, -, rfl⟩ | ⟨rfl, -, rfl⟩
  · exact ⟨by simp, by simp, fun _ _ => rfl⟩
  · exact absurd hc hi
  · exact absurd hp ht
  · exact absurd (raise_phase _ _ _) ht
  · exact ⟨by simp, by simp, fun _ _ => rfl⟩
  · exact ⟨by simp, by simp, fun _ _ => rfl⟩
  · refine ⟨fun y hy => ?_, by simp, fun hne => absurd rfl (hne x)⟩
    cases hy
    exact (List.append_assoc _ _ _).symm
  · exact ⟨by simp, fun _ => ⟨rfl, (List.append_assoc _ _ _).symm⟩, fun _ hne => absurd rfl hne⟩

/-! ### Accesses (R49, R51) -/

/-- A write that raises no error leaves the stream. -/
theorem stream_memWrite {s : State} {off : Offset} {v : Word} (h : (s.memWrite off v).phase ≠ .error) :
    (s.memWrite off v).stream = s.stream := by
  rcases memWrite_effect s off v with ⟨-, hm⟩ | ⟨c, w, -, hm⟩ | ⟨x, -, -, -, hm⟩ | hm <;> rw [hm] at h ⊢
  · rfl
  · exact absurd (raise_phase s c w) h
  · rfl

/-- The bits a read takes off the front of the stream are those of the byte it pops. -/
theorem stream_afterRead (s : State) (off : Offset) :
    s.stream = (poppedBy (.read off (s.readWord off))).toList.flatMap byteBits ++ (s.afterRead off).stream := by
  by_cases hoff : off = outDataOff
  · subst hoff
    rw [poppedBy_outData, show s.afterRead outDataOff = _ from (read_outData s).2]
    unfold State.stream
    cases s.fifo <;> simp
  · rw [poppedBy_elsewhere hoff, afterRead_elsewhere s hoff]
    rfl

/-! ### What a step can do to the stream -/

/-- What one step that raises no error and starts no new run does to the stream and to the bytes popped: it runs a
command, reads one register, or leaves both alone. -/
inductive StreamStep (s t : State) : Prop where
  | command (i : Instr) (hx : s.execsNext (encode i)) (hi : i ≠ .clear) (ht : exec i s.taken = .next t)
  | read (off : Offset) (ha : s.nextAgent = some .host) (hpop : s.popsNext ↔ off = outDataOff)
      (hstream : t.stream = (s.afterRead off).stream)
      (htrace : t.host.trace = s.host.trace ++ [.read off (s.readWord off)])
  | quiet (hx : ∀ w, ¬s.execsNext w) (hpop : ¬s.popsNext) (hstream : t.stream = s.stream)
      (hpopped : t.popped = s.popped)

theorem popsNext_iff {s : State} {op : HostOp} {rest : List HostOp} (ha : s.nextAgent = some .host)
    (hp : s.host.prog = op :: rest) : s.popsNext ↔ (∃ name, op = .rd outDataOff 4 name) ∨ op = .popToOut := by
  unfold State.popsNext
  rw [hp]
  simp [ha, outDataOff]

theorem not_popsNext_of_ne {s : State} (ha : s.nextAgent ≠ some .host) : ¬s.popsNext := fun h => ha h.1

theorem StreamStep.of_hostOp {s t : State} {op : HostOp} {rest : List HostOp} (ha : s.nextAgent = some .host)
    (hp : s.host.prog = op :: rest) (h : hostOp op (s.withHost s.sched.tail { s.host with prog := rest }) = .next t)
    (hn : ¬s.clearsNext) (ht : t.phase ≠ .error) : StreamStep s t := by
  have hpop := popsNext_iff ha hp
  rcases hostOp_cases h with ⟨off, v, rfl, -, rfl⟩ | ⟨off, name, rfl, -, rfl⟩ | ⟨rfl, rfl⟩ | ⟨rfl, rfl⟩ | ⟨rfl, rfl⟩ |
    ⟨rfl, -⟩
  · rw [hostWrite_withHost] at ht ⊢
    refine .quiet (not_execsNext_of_ne (by simp [ha])) (by simp [hpop]) (stream_memWrite ht) ?_
    simp [State.popped, poppedBy]
  · rw [hostRead_withHost]
    exact .read off ha (by simp [hpop]) rfl rfl
  · rw [hostRead_withHost]
    exact .read statusOff ha (by simp [hpop, statusOff, outDataOff]) rfl rfl
  · rw [hostRead_withHost]
    exact .read statusOff ha (by simp [hpop, statusOff, outDataOff]) rfl rfl
  · rw [hostRead_withHost]
    exact .read outDataOff ha (by simp [hpop]) rfl rfl
  · exact absurd (.inr ⟨ha, by rw [hp]; rfl⟩) hn

theorem StreamStep.of_step {s t : State} (h : step s = .next t) (hn : ¬s.clearsNext) (ht : t.phase ≠ .error) :
    StreamStep s t := by
  rcases step_cases h with ⟨ha, rfl⟩ | ⟨ha, he⟩ | ⟨op, rest, ha, hp, ho⟩
  · exact .quiet (not_execsNext_of_ne (by simp [ha])) (not_popsNext_of_ne (by simp [ha])) rfl rfl
  · have hpop : ¬s.popsNext := not_popsNext_of_ne (by simp [ha])
    rcases engineStep_cases he with ⟨w, i, hw, hi, hx⟩ | ⟨w, e, -, -, rfl⟩ | ⟨hw, hd, rfl⟩ | ⟨hw, -, rfl⟩
    · exact .command i (execsNext_of_decode ha hw hi) (ne_clear_of_not_clearsNext hn ha hw hi) hx
    · exact absurd (raise_phase _ _ _) ht
    · exact .quiet (not_execsNext_of_none hw) hpop (drain_stream s.advance ((drainReady_iff _).mp hd).2.1) rfl
    · exact .quiet (not_execsNext_of_none hw) hpop rfl rfl
  · exact .of_hostOp ha hp ho hn ht

theorem execsNext_encode_inj {s : State} {i j : Instr} (hi : s.execsNext (encode i)) (hj : s.execsNext (encode j)) :
    i = j := by
  have hdec := decode_encode i
  rw [execsNext_unique hi hj, decode_encode] at hdec
  exact (Except.ok.inj hdec).symm

/-- The bytes popped after one more access. -/
theorem popped_of_trace {s t : State} {e : Event} (h : t.host.trace = s.host.trace ++ [e]) :
    t.popped = s.popped ++ (poppedBy e).toList :=
  (popped_eq (s := s.record e) h).trans (popped_record s e)

/-- Settles O27: one case for each constructor of `StreamStep`; FLUSH is taken over at most 7 bits (R90). -/
theorem streamOfCodes : Obligations.StreamOfCodes := by
  unfold Obligations.StreamOfCodes
  intro s t h hstep hn ht
  cases StreamStep.of_step hstep hn ht with
  | command i hx hi hexec =>
    have hpop : ¬s.popsNext := not_popsNext_of_ne (by simp [hx.1])
    have hpopped : t.popped = s.popped := popped_eq (congrArg HostState.trace (exec_host (s := s.taken) hexec))
    obtain ⟨henc, hflush, helse⟩ := stream_exec (s := s.taken) hi hexec ht
    refine ⟨fun x hx' => henc x (eq_enc_of_execsNext hx hx'), fun hx' => ?_, fun hp => absurd hp hpop, fun _ => hpopped,
      fun hne hnf _ => helse (fun x hix => ?_) fun hif => ?_⟩
    · obtain rfl : i = .flush := execsNext_encode_inj hx hx'
      obtain ⟨hpad, hstream⟩ := hflush rfl
      have hbits : s.bitbuf.length ≤ 7 := h.pendingDrained _ hx.2 (by decide)
      have hpad' : t.pad = (8 - s.stream.length % 8) % 8 := hpad.trans (padOf_eq hbits)
      refine ⟨hpad', hstream, ?_⟩
      rw [hstream, List.length_append, List.length_replicate, show s.taken.stream = s.stream from rfl]
      omega
    · exact hne x (encode_enc x ▸ hix ▸ hx)
    · exact hnf (show s.execsNext (encode .flush) from hif ▸ hx)
  | read off ha hpop hstream htrace =>
    have hx : ∀ w, ¬s.execsNext w := not_execsNext_of_ne (by simp [ha])
    have hpopped := popped_of_trace htrace
    have hsplit := stream_afterRead s off
    rw [← hstream] at hsplit
    have hnone : (s.popsNext → s.fifo = []) → poppedBy (.read off (s.readWord off)) = none := fun hf => by
      by_cases hoff : off = outDataOff
      · rw [hoff, poppedBy_outData, hf (hpop.mpr hoff)]; rfl
      · exact poppedBy_elsewhere hoff _
    refine ⟨fun x hx' => absurd hx' (hx _), fun hx' => absurd hx' (hx _), fun hp b rest hf => ?_, fun hf => ?_,
      fun _ _ hf => ?_⟩
    · obtain rfl := hpop.mp hp
      rw [poppedBy_outData, hf] at hpopped hsplit
      have hword : s.readWord outDataOff = 0x00000100 + b.setWidth 32 := by
        rw [show s.readWord outDataOff = _ from (read_outData s).1, outDataWord_of_cons hf, BitVec.add_comm]
      exact ⟨by simpa using hsplit, by rw [htrace, hword]; rfl, hpopped⟩
    · simpa [hnone hf] using hpopped
    · simpa [hnone hf] using hsplit.symm
  | quiet hx hpop hstream hpopped =>
    exact ⟨fun x hx' => absurd hx' (hx _), fun hx' => absurd hx' (hx _), fun hp => absurd hp hpop, fun _ => hpopped,
      fun _ _ _ => hstream⟩

end Sys2Proof.Machine
end

section
/-! SUPPORT. Proofs of the statements of spec/30_encoding.md: the decoder and the encoder, the illegal words, host
programs, and the polls of `wait` and `popall` (R60 to R67). -/

namespace Sys2Proof.Machine

/-! ### Words and commands (R60 to R62) -/

/-- Settles O1, word by word. -/
theorem specWordsDecode : Obligations.SpecWordsDecode := by
  unfold Obligations.SpecWordsDecode
  decide

/-- Settles O2, from `encode_of_decode` and `decode_encode`. -/
theorem decodeAndEncodeAgree : Obligations.DecodeAndEncodeAgree := by
  unfold Obligations.DecodeAndEncodeAgree
  exact fun i w => ⟨encode_of_decode, fun h => h ▸ decode_encode i⟩

/-- A word decodes to a command exactly when its fields are the command's (R60, R62). -/
theorem decode_eq_ok_iff (i : Instr) (w : Word) :
    decode w = .ok i ↔ opcField w = opcOf i ∧ rsvdField w = 0 ∧ argField w = argOf i := by
  refine ⟨fields_of_decode, fun ⟨hopc, hrsvd, harg⟩ => ?_⟩
  have hw : w = encode i := by rw [← word_of_fields w, hopc, hrsvd, harg]; rfl
  rw [hw, decode_encode]

/-! ### Illegal words (R63) -/

theorem isIllegal_iff (w : Word) : isIllegal w = true ↔ ¬∃ i, decode w = .ok i := by
  unfold isIllegal
  cases decode w <;> simp

theorem opcodeRow (i : Instr) : Laws.OpcodeRow.Statement i := by
  cases i with
  | nop => exact Laws.OpcodeRow.nop
  | clear => exact Laws.OpcodeRow.clear
  | build => exact Laws.OpcodeRow.build
  | gen => exact Laws.OpcodeRow.gen
  | enc x => exact Laws.OpcodeRow.enc x
  | flush => exact Laws.OpcodeRow.flush

/-- ENC's mask keeps OPC and RSVD (R62). -/
theorem fields_and_encMask (w : Word) :
    opcField (w &&& 0xFFFFFF00) = opcField w ∧ rsvdField (w &&& 0xFFFFFF00) = rsvdField w := by
  constructor
  · exact BitVec.extractLsb'_and.trans BitVec.and_allOnes
  · exact BitVec.extractLsb'_and.trans BitVec.and_allOnes

/-- A row without operand is one word (R62). -/
theorem decode_of_wholeRow {i : Instr} {w : Word} (hmask : maskWord i = BitVec.allOnes 32)
    (hmatch : matchWord i = encode i) (h : w &&& maskWord i = matchWord i) : decode w = .ok i := by
  rw [hmask, BitVec.and_allOnes, hmatch] at h
  rw [h, decode_encode]

/-- A word in ENC's row is ENC with the word's ARG (R62). -/
theorem decode_of_encRow {w : Word} (h : w &&& 0xFFFFFF00 = 0x04000000) : decode w = .ok (.enc (argField w)) := by
  obtain ⟨hopc, hrsvd⟩ := fields_and_encMask w
  rw [h] at hopc hrsvd
  exact (decode_eq_ok_iff _ w).mpr ⟨hopc.symm, hrsvd.symm, rfl⟩

theorem decode_of_row {i : Instr} {w : Word} (h : w &&& maskWord i = matchWord i) : ∃ j, decode w = .ok j := by
  cases i with
  | enc x => exact ⟨_, decode_of_encRow h⟩
  | nop | clear | build | gen | flush => exact ⟨_, decode_of_wholeRow rfl rfl h⟩

theorem decodes_iff_row (w : Word) : (∃ i, decode w = .ok i) ↔ ∃ i, w &&& maskWord i = matchWord i := by
  refine ⟨fun ⟨i, hi⟩ => ⟨i, ?_⟩, fun ⟨_, h⟩ => decode_of_row h⟩
  obtain ⟨hrow, -⟩ := opcodeRow i
  exact encode_of_decode hi ▸ hrow

/-- OPC and ARG of some command (R62): OPC below 6, and ARG 0 unless OPC is ENC's. -/
theorem exists_opcOf_argOf (o : BitVec 8) (a : Byte) :
    (∃ i, o = opcOf i ∧ a = argOf i) ↔ o.toNat < 6 ∧ (a = 0 ∨ o.toNat = 4) := by
  constructor
  · rintro ⟨i, rfl, rfl⟩
    cases i <;> simp [opcOf, argOf]
  · rintro ⟨ho, ha⟩
    have hopc : ∀ o : BitVec 8, o.toNat < 6 → o = 0 ∨ o = 1 ∨ o = 2 ∨ o = 3 ∨ o = 4 ∨ o = 5 := by decide
    rcases hopc o ho with rfl | rfl | rfl | rfl | rfl | rfl
    case inr.inr.inr.inr.inl => exact ⟨.enc a, rfl, rfl⟩
    all_goals obtain rfl : a = 0 := ha.resolve_right (by decide)
    · exact ⟨.nop, rfl, rfl⟩
    · exact ⟨.clear, rfl, rfl⟩
    · exact ⟨.build, rfl, rfl⟩
    · exact ⟨.gen, rfl, rfl⟩
    · exact ⟨.flush, rfl, rfl⟩

theorem decodes_iff_fields (w : Word) :
    (∃ i, decode w = .ok i) ↔
      rsvdField w = 0 ∧ (opcField w).toNat < 6 ∧ (argField w = 0 ∨ (opcField w).toNat = 4) := by
  rw [← exists_opcOf_argOf, ← exists_and_left]
  exact exists_congr fun i => by rw [decode_eq_ok_iff, and_left_comm]

/-- EXEC of an illegal word (R63, R105). -/
theorem engineStep_of_illegal {s : State} {w : Word} (hill : isIllegal w = true) (hw : s.cmdPending = some w) :
    engineStep s = .next (({ s with cmdPending := none } : State).raise .illegalCmd w) := by
  rw [engineStep, hw]
  dsimp only
  unfold execWord
  split
  · exact absurd ⟨_, ‹_›⟩ ((isIllegal_iff w).mp hill)
  · rfl

/-- Settles O3: the legal words by rows and by fields, then the error entry. -/
theorem illegalWordsRaiseIllegalCmd : Obligations.IllegalWordsRaiseIllegalCmd := by
  unfold Obligations.IllegalWordsRaiseIllegalCmd
  refine fun w => ⟨?_, ?_, fun s hill hw => ?_⟩
  · rw [isIllegal_iff, decodes_iff_row, not_exists]
  · rw [isIllegal_iff, decodes_iff_fields]
    simp only [opcField, rsvdField, argField]
    rw [not_and_or, not_and_or, not_or, not_lt, or_left_comm]
  · rw [engineStep_of_illegal hill hw]
    split
    · rw [raise_of_error ‹_›]
    · rw [raise_of_ne ‹_›]; rfl

/-! ### Host programs (R65 to R67) -/

/-- Settles O51, line by line. -/
theorem hostProgramNotation : Obligations.HostProgramNotation := by
  unfold Obligations.HostProgramNotation
  decide

/-! ### `wait` and `popall` (R66) -/

theorem outValid_iff (s : State) : s.outValid = true ↔ s.fifo ≠ [] := by
  rw [State.outValid, decide_eq_true_iff, List.length_pos_iff]

/-- The Host after it has read STATUS, with a program to go on with. -/
def State.polled (s : State) (prog : List HostOp) : HostState :=
  { s.host with
    prog := prog
    vars := ("st", statusWord s) :: s.host.vars
    trace := s.host.trace ++ [.read statusOff (statusWord s)] }

@[simp] theorem polled_prog (s : State) (prog : List HostOp) : (s.polled prog).prog = prog := rfl

/-- A read of STATUS changes the Host alone, and then the Host goes on with `ops` (R52, R66). -/
theorem poll_withHost (s : State) (a : List Agent) (rest ops : List HostOp) :
    (hostRead statusOff "st" (s.withHost a { s.host with prog := rest })).push ops =
      s.withHost a (s.polled (ops ++ rest)) := by
  have hafter : s.afterRead statusOff = s := (readWord_of_fixed rfl).2 (by decide)
  rw [hostRead_withHost, hafter, show s.readWord statusOff = statusWord s from readWord_status s]
  rfl

/-- What `wait` goes on with, by the flags that STATUS shows (R16, R21, R66). -/
theorem waitNext_status (s : State) :
    waitNext (statusWord s) = (if s.outValid then [.popToOut] else []) ++ (if s.busy then [.wait] else []) := by
  obtain ⟨-, -, -, -, hvalid, -⟩ := statusWord_bits s
  rw [waitNext, hvalid, statusWord_busy]

theorem popallNext_status (s : State) :
    popallNext (statusWord s) = if s.outValid then [.popToOut, .popall] else if s.busy then [.popall] else [] := by
  obtain ⟨-, -, -, -, hvalid, -⟩ := statusWord_bits s
  rw [popallNext, hvalid, statusWord_busy]

theorem step_of_wait {s : State} {rest : List HostOp} (ha : s.nextAgent = some .host)
    (hp : s.host.prog = .wait :: rest) :
    step s = .next (s.withHost s.sched.tail (s.polled (waitNext (statusWord s) ++ rest))) := by
  rw [step_of_hostOp ha hp, hostOp, poll_withHost, ← readWord_status s]
  rfl

theorem step_of_popall {s : State} {rest : List HostOp} (ha : s.nextAgent = some .host)
    (hp : s.host.prog = .popall :: rest) :
    step s = .next (s.withHost s.sched.tail (s.polled (popallNext (statusWord s) ++ rest))) := by
  rw [step_of_hostOp ha hp, hostOp, poll_withHost, ← readWord_status s]
  rfl

/-- With no operation left, FIFO empty and BUSY 0 a run is complete (R122). -/
theorem complete_of_idle {s : State} (hp : s.host.prog = []) (hf : s.fifo = []) (hb : s.busy = false) :
    s.complete = true := by
  obtain ⟨hc, hbits⟩ := busy_eq_false.mp hb
  exact (complete_iff s).mpr ⟨(over_iff s).mpr ⟨hp, hc, .inl hbits⟩, hf⟩

/-- Settles O46: one case for each value of OUT_VALID and BUSY. -/
theorem waitPollsStatus : Obligations.WaitPollsStatus := by
  unfold Obligations.WaitPollsStatus
  intro s rest ha hp
  refine ⟨_, step_of_wait ha hp, rfl, rfl, fun hf hb => ?_, fun hf hb => ?_, fun hf hb => ?_, fun hf hb => ?_⟩ <;>
    simp [waitNext_status, outValid_iff, hf, hb]

/-- Settles O47: one case for each value of OUT_VALID and, without it, of BUSY; a run that ends is complete by
`complete_of_idle`. -/
theorem popallPollsStatus : Obligations.PopallPollsStatus := by
  unfold Obligations.PopallPollsStatus
  intro s rest ha hp
  refine ⟨_, step_of_popall ha hp, rfl, rfl, fun hf hb => ?_, fun hf hb => ?_, fun hf => ?_⟩
  · have hprog : (s.polled (popallNext (statusWord s) ++ rest)).prog = rest := by
      simp [popallNext_status, outValid_iff, hf, hb]
    exact ⟨hprog, fun hr => complete_of_idle (hprog.trans hr) hf hb⟩
  · simp [popallNext_status, outValid_iff, hf, hb]
  · simp [popallNext_status, outValid_iff, hf]

end Sys2Proof.Machine
end

section
/-! SUPPORT. Proofs of the statements of spec/40_control.md: a Host write to CMD, the order of EXEC's checks, the table
of phases, NOP and CLEAR (R68 to R72). -/

namespace Sys2Proof.Machine

/-! ### The error entry as claims write it (R105) -/

theorem raise_eq_failed {s : State} (h : s.phase ≠ .error) (c : Cause) (w : Word) : s.raise c w = s.failed c w :=
  raise_of_ne h c w

theorem raise_eq_multi {s : State} (h : s.phase = .error) (c : Cause) (w : Word) : s.raise c w = s.multi :=
  raise_of_error h c w

/-! ### Writes to CMD (R68) -/

theorem memWrite_cmd (s : State) (v : Word) : s.memWrite 0x0004 v = s.accept v := rfl

/-- Settles O33: the two outcomes of `accept_cases`, with the error entry in and outside ERROR. -/
theorem cmdWriteIsAccepted : Obligations.CmdWriteIsAccepted := by
  unfold Obligations.CmdWriteIsAccepted
  intro s v
  rw [memWrite_cmd]
  rcases accept_cases s v with ⟨hv, ha⟩ | ⟨hv, hb, ha⟩ <;> rw [ha]
  · have hno : v ≠ 0x01000000 → s.busy = true → False := fun hne hb => hv.elim hne (by simp [hb])
    exact ⟨fun _ => ⟨rfl, rfl, rfl⟩, fun hne hb _ => (hno hne hb).elim, fun hne hb _ => (hno hne hb).elim⟩
  · exact ⟨fun h => (h.elim hv (by simp [hb])).elim, fun _ _ he => raise_eq_failed he _ _,
      fun _ _ he => raise_eq_multi he _ _⟩

/-! ### The checks before a command's own effect (R69, R70) -/

/-- Every command but NOP and CLEAR is its effect behind the checks of R69. -/
theorem exec_eq_guarded {i : Instr} (hn : i ≠ .nop) (hc : i ≠ .clear) : ∃ run, ∀ s, exec i s = guarded i s run := by
  cases i with
  | nop => exact absurd rfl hn
  | clear => exact absurd rfl hc
  | build => exact ⟨runBuild, fun _ => rfl⟩
  | gen => exact ⟨runGen, fun _ => rfl⟩
  | enc x => exact ⟨runEnc x, fun _ => rfl⟩
  | flush => exact ⟨runFlush, fun _ => rfl⟩

/-- In ERROR a command other than NOP and CLEAR sets MULTI alone (R106). -/
theorem exec_of_error {i : Instr} {s : State} (hp : s.phase = .error) (hn : i ≠ .nop) (hc : i ≠ .clear) :
    exec i s = .next s.multi := by
  obtain ⟨run, hrun⟩ := exec_eq_guarded hn hc
  rw [hrun, guarded, if_pos hp]
  rfl

/-- In a phase that does not admit it a command raises the cause of R70 with its word. -/
theorem exec_of_phaseError {i : Instr} {s : State} {p : Phase} {c : Cause} (hp : s.phase = p) (he : p ≠ .error)
    (hc : phaseError i p = some c) : exec i s = .next (s.failed c (encode i)) := by
  subst hp
  obtain ⟨run, hrun⟩ := exec_eq_guarded (i := i) (by rintro rfl; cases hc) (by rintro rfl; cases hc)
  rw [hrun, guarded, if_neg he, hc]
  dsimp only
  rw [raise_eq_failed he]

/-- In a phase that admits it a command runs (R70). -/
theorem guarded_of_admitted {i : Instr} {s : State} {p : Phase} (hp : s.phase = p) (he : p ≠ .error)
    (hc : phaseError i p = none) (run : State → Result) : guarded i s run = run s := by
  subst hp
  rw [guarded, if_neg he, hc]

/-- Settles O7, cell by cell: a cause is `exec_of_phaseError`, a command that runs is `guarded_of_admitted`. -/
theorem phaseTable : Obligations.PhaseTable := by
  unfold Obligations.PhaseTable
  intro s
  refine ⟨rfl, fun hp i hn hc => exec_of_error hp hn hc, rfl, ?buildRuns, ?buildRaises, ?genNoTree, ?genRuns,
    ?genRaises, fun x => ?encRaises, fun x => ?encRuns, ?flushRaises, ?flushRuns⟩
  case buildRuns => exact fun hp => guarded_of_admitted hp (by decide) rfl runBuild
  case buildRaises => rintro (hp | hp | hp | hp) <;> exact exec_of_phaseError hp (by decide) rfl
  case genNoTree => exact fun hp => exec_of_phaseError hp (by decide) rfl
  case genRuns => exact fun hp => guarded_of_admitted hp (by decide) rfl runGen
  case genRaises => rintro (hp | hp | hp) <;> exact exec_of_phaseError hp (by decide) rfl
  case encRaises =>
    rw [← encode_enc]
    rintro (hp | hp | hp) <;> exact exec_of_phaseError hp (by decide) rfl
  case encRuns => rintro (hp | hp) <;> exact guarded_of_admitted hp (by decide) rfl (runEnc x)
  case flushRaises => rintro (hp | hp | hp) <;> exact exec_of_phaseError hp (by decide) rfl
  case flushRuns => rintro (hp | hp) <;> exact guarded_of_admitted hp (by decide) rfl runFlush

/-! ### The checks of a command's data (R87, R96) -/

theorem symbolsOf_eq_nil {t : FreqTable} (h : ∀ x, freqAt t x = 0) : symbolsOf t = [] := by
  refine List.eq_nil_iff_forall_not_mem.mpr fun n hn => ?_
  obtain ⟨hlt, hne⟩ := (mem_symbolsOf t n).mp hn
  have hx : (BitVec.ofNat 8 n).toNat = n := Nat.mod_eq_of_lt hlt
  exact hne (by rw [← hx, freqAt_eq_getD, h])

/-- BUILD in LOAD over an empty table (R96). -/
theorem exec_build_of_empty {s : State} (hp : s.phase = .load) (h : ∀ x, freqAt s.freq x = 0) :
    exec .build s = .next (s.failed .emptyTable 0) := by
  have hrun : exec .build s = runBuild s := guarded_of_admitted hp (by decide) rfl runBuild
  rw [hrun, runBuild, if_pos (symbolsOf_eq_nil h), raise_eq_failed (by simp [hp])]

/-- ENC of a symbol without a code (R87). -/
theorem exec_enc_of_no_code {s : State} {x : Byte} (hp : s.phase = .coded ∨ s.phase = .encode)
    (h : codeAt s.code x = []) : exec (.enc x) s = .next (s.failed .missingCode (x.setWidth 32)) := by
  have hrun : exec (.enc x) s = runEnc x s := by
    rcases hp with hp | hp <;> exact guarded_of_admitted hp (by decide) rfl (runEnc x)
  have he : s.phase ≠ .error := by rcases hp with hp | hp <;> simp [hp]
  rw [hrun, runEnc, if_pos h, raise_eq_failed he]

/-! ### EXEC (R69, R104) -/

/-- EXEC of a legal word is its command, on the state with the word taken out (R69). -/
theorem engineStep_of_command {s : State} {w : Word} {i : Instr} (hw : s.cmdPending = some w) (hi : decode w = .ok i) :
    engineStep s = exec i { s with cmdPending := none } := by
  rw [engineStep, hw]
  dsimp only
  rw [execWord, hi]

/-- In ERROR every word but CLEAR and NOP sets MULTI alone, be it legal or not (R69, R106). -/
theorem engineStep_of_error {s : State} {w : Word} (hw : s.cmdPending = some w) (hp : s.phase = .error)
    (hc : w ≠ 0x01000000) (hn : w ≠ 0x00000000) :
    engineStep s = .next { s with cmdPending := none, errMulti := true } := by
  cases hi : decode w with
  | error e =>
    obtain ⟨-, -, hstep⟩ := illegalWordsRaiseIllegalCmd w
    rw [hstep s (by simp [isIllegal, hi]) hw, if_pos hp]
  | ok i =>
    have hencode := encode_of_decode hi
    exact (engineStep_of_command hw hi).trans
      (exec_of_error hp (by rintro rfl; exact hn hencode.symm) (by rintro rfl; exact hc hencode.symm))

/-- Settles O5, check by check: CLEAR and NOP, ERROR, the illegal word, the phase, and the data of BUILD and ENC. A
cause raised on the state with the word taken out is the cause raised on s: the error entry empties CMD_PENDING, too. -/
theorem execChecksInOrder : Obligations.ExecChecksInOrder := by
  unfold Obligations.ExecChecksInOrder
  intro s w hw
  refine ⟨?clear, ?nop, fun hc hn hp => engineStep_of_error hw hp hc hn, fun _ he hill => ?illegal,
    fun i c _ he hi hc => ?phase, ?emptyTable, ?missingCode⟩
  case clear => rintro rfl; exact engineStep_of_command (i := .clear) hw rfl
  case nop => rintro rfl; exact engineStep_of_command (i := .nop) hw rfl
  case illegal =>
    obtain ⟨-, -, hstep⟩ := illegalWordsRaiseIllegalCmd w
    rw [hstep s hill hw, if_neg he]
  case phase =>
    rw [← encode_of_decode hi]
    exact (engineStep_of_command hw hi).trans (exec_of_phaseError rfl he hc)
  case emptyTable =>
    rintro rfl hp hfreq
    exact (engineStep_of_command (i := .build) hw rfl).trans (exec_build_of_empty hp hfreq)
  case missingCode =>
    rintro x rfl hp hcode
    rw [← encode_enc] at hw
    exact (engineStep_of_command hw (decode_encode _)).trans (exec_enc_of_no_code hp hcode)

/-! ### NOP and CLEAR (R71, R72) -/

/-- Settles O8: the step is NOP on the taken state. -/
theorem nopChangesNothing : Obligations.NopChangesNothing := by
  unfold Obligations.NopChangesNothing
  exact fun s => ⟨rfl, fun ⟨ha, hw⟩ => step_of_command (i := .nop) ha hw rfl⟩

/-- Settles O9, field by field of `doClear`. -/
theorem clearStartsNewRun : Obligations.ClearStartsNewRun := by
  unfold Obligations.ClearStartsNewRun
  exact fun s => ⟨s.doClear, rfl, rfl, freqAt_blank, codeAt_blank, nodeAt_blank, by simp⟩

end Sys2Proof.Machine
end

section
/-! SUPPORT. Proofs of the statements of spec/41_tree_builder.md about the merges and the root (R76 to R78). -/

namespace Sys2Proof.Machine

/-! ### The merges (R76, R77) -/

/-- Settles O12: the merges and the unused slots are clauses of the tree's shape. -/
theorem buildMergesLeastFirst : Obligations.BuildMergesLeastFirst := by
  unfold Obligations.BuildMergesLeastFirst
  rintro s hp ⟨x, hx⟩
  have hk := symbolsOf_ne_nil hx
  have h := buildTree_shape_rootIdx hk
  exact ⟨_, exec_build hp hk, h.merges, h.unused⟩

/-! ### The root (R78) -/

/-- With one symbol no merge takes it, so it is still the one node in Q. -/
theorem TreeShape.root_of_lone {t : FreqTable} {a : Arena} {k root : Nat} (h : TreeShape t a k root) (hk : k = 1)
    {x : Byte} (hx : freqAt t x ≠ 0) : root = x.toNat := by
  have hvalid : (nodeAt a x.toNat).valid = true := by rw [h.leaves x]; exact (leafNode_valid _).mpr hx
  have hlt : x.toNat < 256 := x.isLt
  exact ((h.lastLeft x.toNat).mp ⟨hvalid, by omega, fun j h1 h2 => by omega⟩).symm

/-- With two or more symbols the last slot made is left in Q: every child comes before its parent (R81 item 5), so
none is the child of a slot. -/
theorem TreeShape.root_of_many {t : FreqTable} {a : Arena} {k root : Nat} (h : TreeShape t a k root) (hk : 2 ≤ k) :
    root = 256 + k - 2 := by
  have hvalid : (nodeAt a (256 + k - 2)).valid = true := (h.valid_iff (by omega)).mpr (by omega)
  refine ((h.lastLeft (256 + k - 2)).mp ⟨hvalid, by omega, fun j h1 h2 => ?_⟩).symm
  obtain ⟨-, -, -, hleft, hright⟩ := (h.inner ((h.valid_iff h1).mpr h2) h1).2.children
  omega

/-- Settles O13: the tree's shape names the one node left in Q, by the number of symbols. -/
theorem buildSetsRoot : Obligations.BuildSetsRoot := by
  unfold Obligations.BuildSetsRoot
  rintro s hp ⟨x, hx⟩
  have hk := symbolsOf_ne_nil hx
  have h := buildTree_shape_rootIdx hk
  exact ⟨_, exec_build hp hk, rfl, h.lastLeft, fun hlone _ => h.root_of_lone hlone, h.root_of_many⟩

end Sys2Proof.Machine
end

section
/-! SUPPORT. Proofs of the statements of spec/42_code_generator.md: GEN's effect in TREE (R82, R83, R85), and the codes:
none begins another (R86 item 1), their Kraft sum (R86 item 3), and that they read back uniquely (R94). -/

namespace Sys2Proof.Machine

/-! ### GEN (R82, R83, R85) -/

/-- Settles O16: GEN's effect is `exec_gen`, with the code table that `codesOf_spec` describes. -/
theorem genCompletes : Obligations.GenCompletes := by
  unfold Obligations.GenCompletes
  intro s h hp
  obtain ⟨c, hc, hmatch⟩ := codesOf_spec (h.treeStands (by rw [hp]; rfl)).2
  exact ⟨_, exec_gen hp hc, rfl, hmatch⟩

/-- A lone symbol's code table is the blank one with "0" in the root's slot (R83). -/
theorem codesOf_of_lone {s : State} (hk : s.symcount = 1) (hr : s.rootIdx.toNat < 256) :
    codesOf s = some ((Vector.replicate 256 []).set s.rootIdx.toNat [false] hr) := by
  simp [codesOf, hk, writeCode, hr]

/-- Settles O17: GEN writes one slot of the blank table, the root's. -/
theorem genOfLoneSymbol : Obligations.GenOfLoneSymbol := by
  unfold Obligations.GenOfLoneSymbol
  intro s hp hk hr
  refine ⟨_, exec_gen hp (codesOf_of_lone hk hr), fun x => ?_⟩
  rw [codeAt_set, codeAt_blank]

/-! ### No code begins another (R86 item 1, R94) -/

/-- In the phases with codes the tree stands, and the codes are its own (R14). -/
theorem Inv.codes {s : State} (h : Inv s) (hc : hasCodes s.phase = true) :
    codesMatch s ∧ TreeShape s.freq s.node s.symcount s.rootIdx.toNat := by
  refine ⟨h.codesStand hc, (h.treeStands ?_).2⟩
  cases hp : s.phase <;> simp_all [hasCodes, hasTree]

/-- Settles O19: coded symbols are leaves of one tree, and the code of no leaf begins another's. -/
theorem codesArePrefixFree : Obligations.CodesArePrefixFree := by
  unfold Obligations.CodesArePrefixFree
  intro s h hc x y hx hy r he
  obtain ⟨hmatch, hshape⟩ := h.codes hc
  have hcoded := hmatch.ne_nil_iff hshape
  exact hmatch.apart hshape ((hcoded x).mp hx) ((hcoded y).mp hy) he

/-- Where no code begins another, the bits say which symbol comes first: of two codes that begin the same bits, one
begins the other. -/
theorem flatMap_injective_of_prefixFree {α : Type} {code : α → Bits}
    (hfree : ∀ x y, code x ≠ [] → code y ≠ [] → ∀ r, code y = code x ++ r → x = y) (xs ys : List α)
    (hxs : ∀ x ∈ xs, code x ≠ []) (hys : ∀ y ∈ ys, code y ≠ []) (he : xs.flatMap code = ys.flatMap code) : xs = ys := by
  induction xs generalizing ys with
  | nil =>
    cases ys with
    | nil => rfl
    | cons y ys => exact absurd (List.append_eq_nil_iff.mp he.symm).1 (hys y List.mem_cons_self)
  | cons x xs ih =>
    cases ys with
    | nil => exact absurd (List.append_eq_nil_iff.mp he).1 (hxs x List.mem_cons_self)
    | cons y ys =>
      rw [List.forall_mem_cons] at hxs hys
      obtain ⟨hx, hxs⟩ := hxs
      obtain ⟨hy, hys⟩ := hys
      rw [List.flatMap_cons, List.flatMap_cons] at he
      have hxy : x = y := by
        rcases List.append_eq_append_iff.mp he with ⟨r, hr, -⟩ | ⟨r, hr, -⟩
        · exact hfree x y hx hy r hr
        · exact (hfree y x hy hx r hr).symm
      subst hxy
      rw [ih ys hxs hys (List.append_cancel_left he)]

/-- Settles O21, from O19: no code begins another. -/
theorem codesReadBackUniquely : Obligations.CodesReadBackUniquely := by
  unfold Obligations.CodesReadBackUniquely
  exact fun s h hc => flatMap_injective_of_prefixFree (codesArePrefixFree s h hc)

/-! ### The Kraft sum (R86 item 3) -/

/-- Before the first merge the leaves wait (R75). -/
theorem waits_leaves {a : Arena} {n : Nat} : waits a 256 n ↔ n < 256 ∧ (nodeAt a n).valid = true :=
  ⟨fun ⟨hv, hn, _⟩ => ⟨hn, hv⟩, fun ⟨hn, hv⟩ => ⟨hv, hn, fun _ h1 h2 => by omega⟩⟩

/-- The slot of a symbol is in use for a non-zero frequency (R75). -/
theorem TreeShape.leaf_valid_iff {t : FreqTable} {a : Arena} {k root : Nat} (h : TreeShape t a k root) {x : Byte} :
    (nodeAt a x.toNat).valid = true ↔ freqAt t x ≠ 0 := by
  rw [h.leaves x]
  exact leafNode_valid _

/-- After the merge that makes slot c, c waits and its two children no longer do (R77). -/
theorem TreeShape.waits_succ {t : FreqTable} {a : Arena} {k root c n : Nat} (h : TreeShape t a k root) (hc : 256 ≤ c)
    (hck : c < 255 + k) : waits a (c + 1) n ↔ n = c ∨ (waits a c n ∧ n ≠ leftOf a c ∧ n ≠ rightOf a c) := by
  constructor
  · rintro ⟨hv, hn, hfree⟩
    obtain ⟨hl, hr⟩ := hfree c hc (by omega)
    by_cases hnc : n = c
    · exact .inl hnc
    · exact .inr ⟨⟨hv, by omega, fun j h1 h2 => hfree j h1 (by omega)⟩, hl.symm, hr.symm⟩
  · rintro (rfl | ⟨⟨hv, hn, hfree⟩, hl, hr⟩)
    · refine ⟨(h.valid_iff hc).mpr hck, by omega, fun j h1 h2 => ?_⟩
      obtain ⟨-, -, -, hleft, hright⟩ := (h.inner ((h.valid_iff h1).mpr (by omega)) h1).2.children
      omega
    · refine ⟨hv, by omega, fun j h1 h2 => ?_⟩
      by_cases hj : j = c
      · rw [hj]; exact ⟨hl.symm, hr.symm⟩
      · exact hfree j h1 (by omega)

/-- A merge keeps the sum of the weights in Q, for every weight that adds up at each inner node: followed to the end,
the weights of what waits before slot c add up to the root's. -/
theorem TreeShape.sum_waits {t : FreqTable} {a : Arena} {k root : Nat} (h : TreeShape t a k root) {w : Nat → Nat}
    (hw : ∀ c, 256 ≤ c → c < 255 + k → w c = w (leftOf a c) + w (rightOf a c)) {c d : Nat} (hc : 256 ≤ c)
    (hd : c + d = 255 + k) {Q : Finset Nat} (hQ : ∀ n, n ∈ Q ↔ waits a c n) : ∑ n ∈ Q, w n = w root := by
  induction d generalizing c Q with
  | zero =>
    have hroot : Q = {root} := Finset.ext fun n => by
      rw [hQ, show c = 255 + k by omega, h.lastLeft, Finset.mem_singleton]
    rw [hroot, Finset.sum_singleton]
  | succ d ih =>
    have hM := (h.inner ((h.valid_iff hc).mpr (by omega)) hc).2
    obtain ⟨hleft, -⟩ := hM.left
    obtain ⟨⟨hright, hne⟩, -⟩ := hM.right
    have hl : leftOf a c ∈ Q := (hQ _).mpr hleft
    have hr : rightOf a c ∈ Q.erase (leftOf a c) := Finset.mem_erase.mpr ⟨hne, (hQ _).mpr hright⟩
    have hcQ : c ∉ (Q.erase (leftOf a c)).erase (rightOf a c) := fun hmem =>
      absurd ((hQ c).mp (Finset.mem_of_mem_erase (Finset.mem_of_mem_erase hmem))).2.1 (Nat.lt_irrefl c)
    calc ∑ n ∈ Q, w n
        = w (leftOf a c) + (w (rightOf a c) + ∑ n ∈ (Q.erase (leftOf a c)).erase (rightOf a c), w n) := by
          rw [Finset.add_sum_erase _ _ hr, Finset.add_sum_erase _ _ hl]
      _ = ∑ n ∈ insert c ((Q.erase (leftOf a c)).erase (rightOf a c)), w n := by
          rw [Finset.sum_insert hcQ, hw c hc (by omega), Nat.add_assoc]
      _ = w root := ih (c := c + 1) (by omega) (by omega) fun n => by
          rw [h.waits_succ hc (by omega), Finset.mem_insert, Finset.mem_erase, Finset.mem_erase, hQ]
          tauto

/-- The path to a child is its parent's with one bit more (R82). -/
theorem TreeShape.path_child {t : FreqTable} {a : Arena} {k root c : Nat} (h : TreeShape t a k root) {path : Nat → Bits}
    (hpath : ∀ n, (nodeAt a n).valid = true → walk a root (path n) = some n) (hc : 256 ≤ c) (hck : c < 255 + k)
    (b : Bool) : path (if b then rightOf a c else leftOf a c) = path c ++ [b] := by
  have hv := (h.valid_iff hc).mpr hck
  have hM := (h.inner hv hc).2
  have hkid : (nodeAt a (if b then rightOf a c else leftOf a c)).valid = true := by
    obtain ⟨-, hleft, hright, -⟩ := hM.children
    cases b
    · exact hleft
    · exact hright
  exact h.path_unique (hpath _ hkid) (walk_snoc.mpr ⟨c, hpath c hv, hM.inner, hkid, rfl⟩)

/-- A node at depth m gives 2^(255 - m), and its two children, one link deeper, give half of it each: no path is longer
than 255 bits (R84), so the halves are exact. -/
theorem TreeShape.pathWeight_split {t : FreqTable} {a : Arena} {k root c : Nat} (h : TreeShape t a k root)
    {path : Nat → Bits} (hpath : ∀ n, (nodeAt a n).valid = true → walk a root (path n) = some n) (hc : 256 ≤ c)
    (hck : c < 255 + k) :
    2 ^ (255 - (path c).length) = 2 ^ (255 - (path (leftOf a c)).length) + 2 ^ (255 - (path (rightOf a c)).length) := by
  have hleft : path (leftOf a c) = path c ++ [false] := h.path_child hpath hc hck false
  have hright : path (rightOf a c) = path c ++ [true] := h.path_child hpath hc hck true
  have hshort : (path c).length + 1 ≤ 255 := by
    obtain ⟨-, hlv, -⟩ := (h.inner ((h.valid_iff hc).mpr hck) hc).2.children
    have hlen := h.grounded.walk_length (hpath _ hlv)
    rw [hleft, List.length_append, List.length_singleton] at hlen
    have := h.root_valid.2
    have := h.count_le
    omega
  rw [hleft, hright, List.length_append, List.length_append, List.length_singleton, List.length_singleton, ← Nat.two_mul,
    ← Nat.pow_succ', show (255 - ((path c).length + 1)).succ = 255 - (path c).length by omega]

/-- A sum over the code table is the sum over its 256 symbols. -/
theorem sum_codeTable {t : CodeTable} {f : Bits → Nat} {g : Nat → Nat} (h : ∀ x, f (codeAt t x) = g x.toNat) :
    (t.toList.map f).sum = ∑ n ∈ Finset.range 256, g n := by
  have hlist : t.toList.map f = (List.range 256).map g := by
    refine List.ext_getElem (by simp) fun n hn _ => ?_
    have hlt : n < 2 ^ 8 := by simpa using hn
    have hx := h (BitVec.ofNat 8 n)
    simp only [codeAt, BitVec.toNat_ofNat, Nat.mod_eq_of_lt hlt] at hx
    simpa using hx
  rw [hlist]
  rfl

/-- The Kraft sum is the root's weight, for every weight that adds up at each inner node and that a coded symbol's leaf
has by the length of its code. -/
theorem codesMatch.kraftSum {s : State} (hm : codesMatch s)
    (h : TreeShape s.freq s.node s.symcount s.rootIdx.toNat) {w : Nat → Nat}
    (hw : ∀ c, 256 ≤ c → c < 255 + s.symcount → w c = w (leftOf s.node c) + w (rightOf s.node c))
    (hcode : ∀ x, freqAt s.freq x ≠ 0 → 2 ^ (255 - (codeAt s.code x).length) = w x.toNat) :
    (s.code.toList.map fun c => if c = [] then 0 else 2 ^ (255 - c.length)).sum = w s.rootIdx.toNat := by
  have hterm : ∀ x : Byte, (if codeAt s.code x = [] then 0 else 2 ^ (255 - (codeAt s.code x).length)) =
      if (nodeAt s.node x.toNat).valid = true then w x.toNat else 0 := by
    intro x
    by_cases hx : freqAt s.freq x = 0
    · rw [if_pos ((hm x).1 hx), if_neg fun hv => h.leaf_valid_iff.mp hv hx]
    · rw [if_neg ((hm.ne_nil_iff h x).mpr hx), if_pos (h.leaf_valid_iff.mpr hx), hcode x hx]
  have hpos := h.pos
  calc (s.code.toList.map fun c => if c = [] then 0 else 2 ^ (255 - c.length)).sum
      = ∑ n ∈ Finset.range 256, if (nodeAt s.node n).valid = true then w n else 0 :=
        sum_codeTable hterm
    _ = ∑ n ∈ Finset.range 256 with (nodeAt s.node n).valid = true, w n := (Finset.sum_filter _ _).symm
    _ = w s.rootIdx.toNat := h.sum_waits hw le_rfl (d := s.symcount - 1) (by omega) fun n => by
        rw [waits_leaves, Finset.mem_filter, Finset.mem_range]

/-- Settles O20: with k of 2 or more a node's weight is set by its path and the root's path is empty; a lone symbol's
code is one bit long, and no merge is made. -/
theorem kraftSum : Obligations.KraftSum := by
  unfold Obligations.KraftSum
  intro s hinv hcodes
  obtain ⟨hm, h⟩ := hinv.codes hcodes
  by_cases hk : s.symcount = 1
  · rw [if_pos hk]
    refine hm.kraftSum h (w := fun _ => 2 ^ 254) (fun c h1 h2 => by omega) fun x hx => ?_
    rw [(hm x).2.1 hx hk, List.length_singleton]
  · rw [if_neg hk]
    choose! path hpath using fun n => h.reaches (n := n)
    have hroot : path s.rootIdx.toNat = [] :=
      h.path_unique (hpath _ h.root_valid.1) (walk_nil.mpr ⟨h.root_valid.1, rfl⟩)
    have hsum := hm.kraftSum h (w := fun n => 2 ^ (255 - (path n).length)) (fun _ => h.pathWeight_split hpath)
      fun x hx => by rw [((hm x).2.2 hx hk _).mpr (hpath _ (h.leaf_valid_iff.mpr hx))]
    rw [hsum, hroot, List.length_nil]

end Sys2Proof.Machine
end

section
/-! SUPPORT. Proofs of the statements of spec/43_bit_encoder.md: the effects of ENC, FLUSH and DRAIN (R87, R88, R89,
R92), and the bound on the Engine's steps that R90 gives (R117, R119, R122). -/

namespace Sys2Proof.Machine

/-! ### ENC and FLUSH (R87, R88, R92) -/

/-- ENC of a coded symbol (R87). -/
theorem exec_enc_of_code {s : State} {x : Byte} (hp : s.phase = .coded ∨ s.phase = .encode)
    (h : codeAt s.code x ≠ []) :
    exec (.enc x) s =
      .next { s with bitbuf := s.bitbuf ++ codeAt s.code x, inCount := s.inCount + 1, phase := .encode } := by
  obtain ⟨-, -, -, -, -, -, -, -, -, hrun, -⟩ := phaseTable s
  rw [hrun x hp, runEnc, if_neg h]

/-- Settles O22, from ENC's effect. -/
theorem encAppendsCode : Obligations.EncAppendsCode := by
  unfold Obligations.EncAppendsCode
  intro s x hp hcode
  exact ⟨_, exec_enc_of_code hp hcode, rfl, rfl, rfl, rfl⟩

/-- FLUSH in a phase that admits it (R88). -/
theorem exec_flush {s : State} (hp : s.phase = .coded ∨ s.phase = .encode) :
    exec .flush s = .next { s with
      bitbuf := s.bitbuf ++ List.replicate (padOf s.bitbuf.length) false
      pad := padOf s.bitbuf.length
      phase := .done } := by
  obtain ⟨-, -, -, -, -, -, -, -, -, -, -, hrun⟩ := phaseTable s
  exact hrun hp

/-- Bits that remain are padded up to 8 (R88). -/
theorem padOf_of_pos {r : Nat} (h : 0 < r) : padOf r = 8 - r := if_pos h

/-- Settles O24: `padOf` at 0 and above 0. -/
theorem flushPads : Obligations.FlushPads := by
  unfold Obligations.FlushPads
  intro s hp hlen
  refine ⟨_, exec_flush hp, rfl, fun hnil => ?_, fun hne => ?_⟩
  · rw [hnil]
    exact ⟨rfl, rfl⟩
  · have hpad := padOf_of_pos (List.length_pos_iff.mpr hne)
    refine ⟨hpad, rfl, ?_⟩
    rw [List.length_append, List.length_replicate, hpad]
    omega

/-- Settles O25: before the first ENC nothing is buffered or counted and PAD is 0, so FLUSH has nothing to pad. -/
theorem flushWithoutEnc : Obligations.FlushWithoutEnc := by
  unfold Obligations.FlushWithoutEnc
  intro s h hp
  obtain ⟨hbits, hfifo, hin, hout⟩ := h.nothingEncoded (by rw [hp]; rfl)
  have hne : s.phase ≠ .error := by simp [hp]
  have hpad : s.pad = 0 := h.padZero (by simp [hp]) hne
  have hcause : s.errCause = .none := by_contra fun hc => hne (h.errorReported.mpr hc)
  have hflush : exec .flush s = .next { s with phase := .done } := by
    rw [exec_flush (.inl hp)]
    simp [hbits, hpad, padOf]
  exact ⟨_, hflush, rfl, hpad, hin, hbits, hfifo, hout, hcause⟩

/-! ### DRAIN (R89) -/

/-- Where DRAIN is enabled, it is the Engine's step. -/
theorem engineStep_of_drainReady {s : State} (h : s.drainReady = true) : engineStep s = .next s.drain := by
  obtain ⟨hc, -⟩ := (drainReady_iff s).mp h
  rw [engineStep, hc]
  exact if_pos h

/-- Bit i of BITBUF is bit 7 - i of the byte DRAIN packs. -/
theorem getElem?_bitbuf_leadByte {b : Bits} (h : 8 ≤ b.length) {i : Nat} (hi : i < 8) :
    b[i]? = some ((leadByte b).getMsbD i) := by
  rw [← List.getElem?_take_of_lt hi, ← byteBits_leadByte b h, byteBits, List.getElem?_map, List.getElem?_range hi]
  rfl

/-- Settles O26: `drainReady_iff` says when DRAIN is enabled; a full FIFO leaves it held, and in ERROR BITBUF is empty. -/
theorem drainPacksOneByte : Obligations.DrainPacksOneByte := by
  unfold Obligations.DrainPacksOneByte
  refine fun s => ⟨drainReady_iff s, ?enabled, ?held, ?error⟩
  case enabled =>
    intro hc hbits hroom
    exact ⟨s.drain, leadByte s.bitbuf, engineStep_of_drainReady ((drainReady_iff s).mpr ⟨hc, hbits, hroom⟩), rfl, rfl,
      rfl, rfl, fun i hi => getElem?_bitbuf_leadByte hbits hi⟩
  case held =>
    intro hc hbits hfull
    have hd : s.drainReady = false := Bool.eq_false_iff.mpr fun hd => by
      obtain ⟨-, -, hroom⟩ := (drainReady_iff s).mp hd
      exact hroom.ne hfull
    exact ⟨by simp [State.engineReady, State.pending, hc, hd], by simp [State.busy, State.drainFlag, hbits],
      by simp [State.drainHeld, State.pending, State.drainFlag, hc, hbits, hfull]⟩
  case error =>
    intro h hp
    have hnil := (h.errorEmpty hp).1
    refine ⟨hnil, Bool.eq_false_iff.mpr fun hd => ?_⟩
    obtain ⟨-, hbits, -⟩ := (drainReady_iff s).mp hd
    simp [hnil] at hbits

/-! ### The Engine's steps with no Host step between (R90, R117, R119) -/

/-- How many steps the Engine can still take: one for each full byte in BITBUF; with a command pending one EXEC and, as
BITBUF then holds at most 262 bits (R90), at most 32 DRAINs. -/
def State.stepsLeft (s : State) : Nat := if s.pending then 33 else s.bitbuf.length / 8

theorem stepsLeft_of_none {s : State} (h : s.cmdPending = none) : s.stepsLeft = s.bitbuf.length / 8 := by
  simp [State.stepsLeft, State.pending, h]

theorem Inv.bytes_le {s : State} (h : Inv s) : s.bitbuf.length / 8 ≤ 32 := by
  have := h.bitbufFits
  omega

theorem Inv.stepsLeft_le {s : State} (h : Inv s) : s.stepsLeft ≤ 33 := by
  have := h.bytes_le
  unfold State.stepsLeft
  split <;> omega

theorem raise_cmdPending_of_none {s : State} (h : s.cmdPending = none) (c : Cause) (w : Word) :
    (s.raise c w).cmdPending = none := by
  unfold State.raise; split
  · exact h
  · rfl

theorem exec_cmdPending {i : Instr} {s t : State} (h : exec i s = .next t) (hc : s.cmdPending = none) :
    t.cmdPending = none := by
  rcases exec_cases h with ⟨-, rfl⟩ | ⟨-, rfl⟩ | ⟨-, -, -, rfl⟩ | ⟨_, _, -, -, -, -, rfl⟩ | ⟨-, -, -, rfl⟩ |
    ⟨_, -, -, -, rfl⟩ | ⟨_, -, -, -, rfl⟩ | ⟨-, -, rfl⟩ <;> simp [hc, raise_cmdPending_of_none]

/-- After the Engine's step nothing is pending: EXEC takes the word, and DRAIN runs without one (R69). -/
theorem engineStep_cmdPending {s t : State} (h : engineStep s = .next t) : t.cmdPending = none := by
  rcases engineStep_cases h with ⟨_, _, -, -, he⟩ | ⟨_, _, -, -, rfl⟩ | ⟨hc, -, rfl⟩ | ⟨hc, -, rfl⟩
  · exact exec_cmdPending he rfl
  · exact raise_cmdPending_of_none rfl _ _
  · exact hc
  · exact hc

/-- An enabled step of the Engine uses one up: EXEC leaves at most 32 bytes, and DRAIN takes one of them. -/
theorem engineStep_stepsLeft {s t : State} (ht : Inv t) (hready : s.engineReady = true) (h : engineStep s = .next t) :
    t.stepsLeft < s.stepsLeft := by
  rw [stepsLeft_of_none (engineStep_cmdPending h)]
  cases hp : s.pending with
  | true =>
    rw [State.stepsLeft, if_pos hp]
    exact Nat.lt_succ_of_le ht.bytes_le
  | false =>
    have hd : s.drainReady = true := by simpa [State.engineReady, hp] using hready
    obtain ⟨hc, hbits, -⟩ := (drainReady_iff s).mp hd
    obtain rfl : s.drain = t := Host.Outcome.next.inj ((engineStep_of_drainReady hd).symm.trans h)
    rw [stepsLeft_of_none hc, drain_bitbuf, List.length_drop]
    omega

/-! ### Runs -/

theorem run_succ {s t : State} (h : step s = .next t) (n : Nat) :
    Host.Core.run Sys2Proof.core (n + 1) s = Host.Core.run Sys2Proof.core n t := by
  have hcore : Sys2Proof.core.step s = .next t := h
  simp only [Host.Core.run, hcore]

/-- Over: no agent has a step (R122). -/
theorem over_iff_not_ready (s : State) : s.over = true ↔ s.hostReady = false ∧ s.engineReady = false := by
  simp [State.over]

/-- Once the run is over, more steps leave the state as it is (R122, log 9). -/
theorem run_of_over {s : State} (h : s.over = true) (n : Nat) : Host.Core.run Sys2Proof.core n s = .next s := by
  obtain ⟨hh, he⟩ := (over_iff_not_ready s).mp h
  induction n with
  | zero => rfl
  | succ n ih => rw [run_succ (step_of_none (nextAgent_none hh he)), ih]

/-- With no Host operation left, a run that is not over takes a step of the Engine, and uses it up. -/
theorem step_of_not_over {s : State} (h : Inv s) (hprog : s.host.prog = []) (hover : s.over = false) :
    ∃ t, step s = .next t ∧ Inv t ∧ t.host.prog = [] ∧ t.stepsLeft < s.stepsLeft := by
  have hh : s.hostReady = false := by simp [State.hostReady, hprog]
  have hready : s.engineReady = true := by simpa [State.over, hh] using hover
  obtain ⟨t, ht⟩ := engineStep_total (s := s.advance) { h with }
  have hstep : step s = .next t := (step_of_engine (nextAgent_engine_of_alone hh hready)).trans ht
  have hinv := invariantKeptByStep s t h hstep
  exact ⟨t, hstep, hinv, engineStep_host ht ▸ hprog, engineStep_stepsLeft (s := s.advance) hinv hready ht⟩

/-- With no Host operation left the run is over after as many steps as the Engine can still take. -/
theorem run_over {n : Nat} {s : State} (h : Inv s) (hprog : s.host.prog = []) (hn : s.stepsLeft ≤ n) :
    ∃ t, Host.Core.run Sys2Proof.core n s = .next t ∧ t.over = true := by
  induction n generalizing s with
  | zero =>
    refine ⟨s, rfl, Bool.of_not_eq_false fun hover => ?_⟩
    obtain ⟨t, -, -, -, hlt⟩ := step_of_not_over h hprog hover
    omega
  | succ n ih =>
    cases hover : s.over with
    | true => exact ⟨s, run_of_over hover _, hover⟩
    | false =>
      obtain ⟨t, hstep, hinv, hprog', hlt⟩ := step_of_not_over h hprog hover
      rw [run_succ hstep]
      exact ih hinv hprog' (by omega)

/-- Settles O60: the Engine has at most 33 steps left, and `complete_iff` says which runs that are over are complete. -/
theorem engineFinishes : Obligations.EngineFinishes := by
  unfold Obligations.EngineFinishes
  intro s h hprog
  obtain ⟨t, hrun, hover⟩ := run_over h hprog h.stepsLeft_le
  obtain ⟨-, hready⟩ := (over_iff_not_ready t).mp hover
  exact ⟨t, hrun, hready, hover, (complete_iff t).trans (and_iff_right hover), complete_bitbuf⟩

end Sys2Proof.Machine
end

section
/-! SUPPORT. Proofs of the statements of spec/60_exceptions.md: the errors of BUILD and ENC, what an error leaves alone,
and what happens in ERROR (R96, R98, R105 to R107). -/

namespace Sys2Proof.Machine

/-! ### The errors of BUILD and ENC (R96, R98) -/

/-- Settles O10, from BUILD over an empty table. -/
theorem buildOfEmptyTable : Obligations.BuildOfEmptyTable := by
  unfold Obligations.BuildOfEmptyTable
  exact fun s => exec_build_of_empty

/-- Settles O23: the codes are those of the tree, which has a leaf exactly for each symbol with a frequency, and ENC
checks the code before any write. -/
theorem encOfUncodedSymbol : Obligations.EncOfUncodedSymbol := by
  unfold Obligations.EncOfUncodedSymbol
  intro s x h hp
  obtain ⟨-, -, ⟨-, hshape⟩, hmatch⟩ := h.standing hp
  have hsymbol : (x.setWidth 32).extractLsb' 0 8 = x := by
    rw [BitVec.extractLsb'_setWidth_of_le (by decide), BitVec.extractLsb'_eq_self]
  exact ⟨not_iff_not.mp (hmatch.ne_nil_iff hshape x), fun hcode => ⟨_, exec_enc_of_no_code hp hcode, rfl, rfl, hsymbol⟩⟩

/-! ### What an error leaves alone (R105) -/

/-- Settles O28: of the ways a command can answer a next state, only the error entry leads from outside ERROR into it. -/
theorem errorsArePrecise : Obligations.ErrorsArePrecise := by
  unfold Obligations.ErrorsArePrecise
  intro i s t hp h ht
  rcases exec_cases h with ⟨-, rfl⟩ | ⟨-, rfl⟩ | ⟨-, -, he, -⟩ | ⟨c, w, -, -, -, hc, rfl⟩ | ⟨-, -, -, rfl⟩ |
    ⟨_, -, -, -, rfl⟩ | ⟨_, -, -, -, rfl⟩ | ⟨-, -, rfl⟩
  · exact absurd ht hp
  · cases ht
  · exact absurd he hp
  · rw [raise_eq_failed hp]
    exact ⟨rfl, hc⟩
  all_goals cases ht

/-! ### In ERROR (R106) -/

/-- An illegal word raises ILLEGAL_CMD, with CMD_PENDING as it is (R63). -/
theorem execWord_of_illegal {w : Word} (h : isIllegal w = true) (s : State) :
    execWord w s = .next (s.raise .illegalCmd w) := by
  unfold execWord
  split
  · exact absurd ⟨_, ‹_›⟩ ((isIllegal_iff w).mp h)
  · rfl

/-- In ERROR a write to FREQ sets MULTI alone, BUSY or not (R50, R106). -/
theorem freqWrite_of_error {s : State} (hp : s.phase = .error) (x : Byte) (off : Offset) (v : Word) :
    s.freqWrite x off v = s.multi := by
  rcases freqWrite_cases s x off v with ⟨-, hw⟩ | ⟨-, -, hw⟩ | ⟨-, hl, -⟩
  · rw [hw, raise_eq_multi hp]
  · rw [hw, raise_eq_multi hp]
  · simp [hp] at hl

/-- In ERROR BITBUF is empty, so the Engine is BUSY with a pending word alone (R16, R106). -/
theorem Inv.pending_of_busy {s : State} (h : Inv s) (hp : s.phase = .error) (hb : s.busy = true) :
    ∃ w, s.cmdPending = some w := by
  obtain ⟨hnil, -⟩ := h.errorEmpty hp
  refine Option.ne_none_iff_exists'.mp fun hc => ?_
  have hidle : s.busy = false := busy_eq_false.mpr ⟨hc, by simp [hnil]⟩
  simp [hidle] at hb

/-- Settles O29, access by access and command by command: each error entry in ERROR is MULTI alone. -/
theorem errorPhaseSetsMultiOnly : Obligations.ErrorPhaseSetsMultiOnly := by
  unfold Obligations.ErrorPhaseSetsMultiOnly
  intro s hp
  refine ⟨rfl, ⟨_, rfl, rfl, rfl, rfl⟩, fun i => exec_of_error hp, fun w hw => ?illegal, freqWrite_of_error hp,
    fun v hv hb => ?cmdWrite, fun h => h.pending_of_busy hp⟩
  case illegal => rw [execWord_of_illegal hw, raise_eq_multi hp]
  case cmdWrite =>
    obtain ⟨-, -, hmulti⟩ := cmdWriteIsAccepted s v
    exact hmulti hv hb hp

/-! ### The ways out of ERROR (R107) -/

/-- A step that starts no new run does not leave ERROR. -/
theorem step_stays_in_error {s t : State} (hp : s.phase = .error) (h : step s = .next t) (hn : ¬s.clearsNext) :
    t.phase = .error := by
  simpa [hp] using phasesGoForward s t h hn

/-- A state of LOAD with no error reported and every table empty. -/
def Blank (t : State) : Prop :=
  t.phase = .load ∧ t.errCause = .none ∧ t.errMulti = false ∧ t.errInfo = 0 ∧
    (∀ x, freqAt t.freq x = 0) ∧ (∀ x, codeAt t.code x = []) ∧ ∀ n, nodeAt t.node n = emptyNode

/-- A new run starts blank (R72, R113). -/
theorem blank_of_clearsNext {s t : State} (h : step s = .next t) (hc : s.clearsNext) : Blank t := by
  rcases step_of_clearsNext hc with hstep | ⟨_, hstep⟩
  all_goals
    cases h.symm.trans hstep
    exact ⟨rfl, rfl, rfl, rfl, freqAt_blank, codeAt_blank, nodeAt_blank⟩

/-- Settles O30: a new run starts in LOAD, and every other step stays in ERROR. -/
theorem onlyClearOrResetLeavesError : Obligations.OnlyClearOrResetLeavesError := by
  unfold Obligations.OnlyClearOrResetLeavesError
  intro s t hp h
  have hblank : s.clearsNext → Blank t := blank_of_clearsNext h
  refine ⟨⟨fun ht => by_contra fun hn => ht (step_stays_in_error hp h hn), fun hc => ?_⟩, hblank⟩
  obtain ⟨hload, -⟩ := hblank hc
  simp [hload]

end Sys2Proof.Machine
end
